-- ==== Sys2Proof/Word.lean ====
section
/-! DEFINITION. The value types of the CORE: unsigned integers of 8, 16, 32 and 64 bits (R14) and the 64-bit RawWord (R70). -/

namespace Sys2Proof

/-- `u8` of R14. -/
abbrev U8 := BitVec 8

/-- `u16` of R14. -/
abbrev U16 := BitVec 16

/-- `u32` of R14; arithmetic on it is modulo 2^32 (R12, D5, D6). -/
abbrev U32 := BitVec 32

/-- `u64` of R14. -/
abbrev U64 := BitVec 64

/-- One transport word (R70); it reaches the CORE as one 64-bit value (R51). -/
abbrev RawWord := BitVec 64

end Sys2Proof
end

