-- ==== Sys2Proof/Config.lean ====
section
/-! DEFINITION. The constants the source fixes (R8, R9), the decided parameter TP_EXT_MODE, and the parameters
left open (R10): those have no body, so nothing can be proved of their values beyond what R10 states of them. -/

namespace Sys2Proof

/-- A number of seconds, `numerator / (denominatorPred + 1)`. R28 and R176 say "positive real": no rule reads the
value except the positivity test (R167), so a fraction carries all of it. DESIGN CHOICE, log 13, safe. -/
structure Seconds where
  numerator : Int
  denominatorPred : Nat
deriving DecidableEq, Repr

/-- The two modes of a TestPulse's extended timestamp (R141). -/
inductive TpExtMode
  | raw
  | withSw
deriving DecidableEq, Repr

/-- `N_LANES` (R9). -/
def Config.laneCount : Nat := 16

/-- `SQUASH_CHUNK` (R9). -/
def Config.squashChunk : Nat := 2048

/-- `SQUASH_MAX_PARTS` (R9). -/
def Config.squashMaxParts : Nat := 8

/-- `TP_OFFSET` (R9), an exact integer in R223. -/
def Config.tpOffset : Int := 5

/-- The side of the square pixel matrix (R8). -/
def Config.matrixSize : Nat := 512

/-- `TP_EXT_MODE = RAW`, the decided mode (R141, D7). -/
def Config.tpExtMode : TpExtMode := .raw

/-- OPEN: the fraction behind `TIMEOUT` (R10, D25). Log 12. -/
opaque Config.timeoutParts : Nat × Nat

/-- `TIMEOUT`, the default wait bound of a Sequence: some positive number of seconds (R10, R176). Log 12. -/
def Config.defaultTimeout : Seconds := ⟨Config.timeoutParts.1 + 1, Config.timeoutParts.2⟩

/-- OPEN: the predecessor of `DIAG_DEPTH` (R10, D26). Log 12. -/
opaque Config.diagDepthPred : Nat

/-- `DIAG_DEPTH`, a positive natural (R259, D26). Log 12. -/
def Config.diagDepth : Nat := Config.diagDepthPred + 1

end Sys2Proof
end

