-- ==== Sys2Proof/Syntax.lean ====
section
/-! DEFINITION. The records of the CORE (R20-R26), the fields of a ChipData word (R72), and `Instr`: one constructor
per row of spec/opcode_table.json, words first, commands after, in the table's order. -/

namespace Sys2Proof

/-- A `ChipData` packet (R21). The containers are R21's (`u8`, `u32`, `bool`); the ranges R21 gives inside them are
`ChipData.inRange`. -/
structure ChipData where
  bottom : Bool
  hitmap : U8
  corepr : U8
  col : U8
  sec : U8
  ts : U8
  tsFpga : U32
  ser : U8
  tsSw : U32
  tsExt : U32
deriving DecidableEq, Repr

/-- A `TestPulse` packet (R22, conflict C3: it carries `ts_sw`). -/
structure TestPulse where
  ts : U32
  tsSw : U32
  tsExt : U32
deriving DecidableEq, Repr

/-- A `CustomWord` packet (R23); `payload = none` exists only in a marker a caller constructs. -/
structure CustomWord where
  message : U64
  payload : Option U8
deriving DecidableEq, Repr

/-- A Packet is one of exactly three variants (R20); a TimestampOverflow is never one (R24). -/
inductive Packet
  | chipData (p : ChipData)
  | testPulse (p : TestPulse)
  | customWord (p : CustomWord)
deriving DecidableEq, Repr

/-- A SubSequence (R27), first packet first. -/
abbrev SubSequence := List Packet

/-- A pixel coordinate (R25). -/
structure Pixel where
  row : U16
  col : U16
deriving DecidableEq, Repr

/-- The four classifier tags (R26). -/
inductive Tag
  | isolated
  | fallingEdge
  | risingEdge
  | ambiguous
deriving DecidableEq, Repr

/-- `tol = (fe_ntol, fe_ptol, tp_ntol, tp_ptol)`, four `i32` read as signed (R220, R12). -/
structure Tolerance where
  feN : U32
  feP : U32
  tpN : U32
  tpP : U32
deriving DecidableEq, Repr

/-- The fields of a ChipData word at their widths in the word (R72). -/
structure ChipFields where
  ser : BitVec 4
  tsFpga : BitVec 24
  ts : U8
  sec : BitVec 4
  col : BitVec 4
  corepr : BitVec 7
  hitmap : U8
  bottom : Bool
deriving DecidableEq, Repr

/-- One constructor per row of spec/opcode_table.json. A word constructor holds the fields its row records (R72-R75);
its counter handle is `State.port`. A command holds its operands (R82): a Sequence handle or a counter handle is a
number; `index` is an `Int` because R247 (d) speaks of a negative one; an optional `timeout` is R167's and R176's. -/
inductive Instr
  | ovf
  | tp (ts : BitVec 24)
  | cw (message : BitVec 48) (payload : U8)
  | chipData0 (f : ChipFields)
  | chipData1 (f : ChipFields)
  | chipData2 (f : ChipFields)
  | chipData3 (f : ChipFields)
  | chipData4 (f : ChipFields)
  | chipData5 (f : ChipFields)
  | chipData6 (f : ChipFields)
  | chipData7 (f : ChipFields)
  | chipData8 (f : ChipFields)
  | chipData9 (f : ChipFields)
  | chipDataB (f : ChipFields)
  | chipDataD (f : ChipFields)
  | chipDataE (f : ChipFields)
  | decode (w : RawWord) (c : Nat)
  | cwEq (a b : CustomWord)
  | secFromCol (col : U16)
  | dcolFromCol (col : U16)
  | coreprFromRow (row : U16)
  | masterFromRow (row : U16)
  | idxFromPos (row col : U16)
  | masterIdx (p : ChipData)
  | pixelsOf (p : ChipData)
  | extendTs (ts : U8) (tsFpga tsSw : U32)
  | isComplete (sub : SubSequence)
  | receive (h : Nat) (p : Packet)
  | receiveWord (h : Nat) (w : RawWord)
  | pop (h : Nat) (index : Int) (timeout : Option Seconds)
  | read (h : Nat) (index : Int) (timeout : Option Seconds)
  | extend (h other : Nat)
  | startReader (h : Nat)
  | stopReader (h : Nat)
  | checkMarker (sub : SubSequence) (expected : CustomWord)
  | newSequence (timeout : Option Seconds)
  | squash (packets : List ChipData) (strict : Bool)
  | classify (tps : List U32) (hits : List ChipData) (tsDelta : U32) (tol : Tolerance)
deriving DecidableEq, Repr

end Sys2Proof
end

