-- ==== Sys2Proof/Machine/Operands.lean ====
section
/-! DEFINITION. The preconditions on operands that R247 names, and the declared ranges of R21-R23 (R14). -/

namespace Sys2Proof

/-- The ranges R21 declares inside the containers of a ChipData. -/
def ChipData.inRange (p : ChipData) : Bool :=
  decide (p.corepr.toNat < 128) && decide (p.col.toNat < 16) && decide (p.sec.toNat < 16)
    && decide (p.tsFpga.toNat < 2 ^ 24) && decide (p.ser.toNat < 16)

/-- R22: `ts` is in 0..2^24-1. -/
def TestPulse.inRange (p : TestPulse) : Bool := decide (p.ts.toNat < 2 ^ 24)

/-- R23: bits 63:48 of `message` are 0. -/
def CustomWord.inRange (m : CustomWord) : Bool := decide (m.message.toNat < 2 ^ 48)

/-- R14: every field of the packet is within its declared range. -/
def Packet.inRange : Packet → Bool
  | .chipData p => p.inRange
  | .testPulse p => p.inRange
  | .customWord m => m.inRange

/-- R247 (a), D35: a row or a column is in 0..511. -/
def coordinateOk (x : U16) : Bool := decide (x.toNat < Config.matrixSize)

/-- R247 (b): `ts_fpga` is below 2^24. -/
def tsFpgaOk (t : U32) : Bool := decide (t.toNat < 2 ^ 24)

/-- R225, R247 (c): `tps` is sorted non-decreasing. -/
def sortedAscending : List U32 → Bool
  | [] => true
  | [_] => true
  | a :: b :: rest => decide (a.toNat ≤ b.toNat) && sortedAscending (b :: rest)

/-- R176, R247 (e): the timeout is positive. -/
def Seconds.isPositive (t : Seconds) : Bool := decide (0 < t.numerator)

/-- R176: the operand of `NEW_SEQUENCE`, or `TIMEOUT` where there is none. -/
def timeoutOperand (t : Option Seconds) : Seconds := t.getD Config.defaultTimeout

end Sys2Proof
end

