-- ==== Sys2Proof/WellFormed.lean ====
section
/-! DEFINITION. When an instruction meets the preconditions R247 puts on its operands alone: (a), (b), (c), (d), (e)
and (g). Precondition (f), a consumed Sequence, depends on the state and is checked by the machine. -/

namespace Sys2Proof

/-- The operands of `i` meet R247 (a)-(e) and (g). Every word meets them (R77). -/
def Instr.wellFormed : Instr → Bool
  | .ovf => true
  | .tp _ => true
  | .cw _ _ => true
  | .chipData0 _ => true
  | .chipData1 _ => true
  | .chipData2 _ => true
  | .chipData3 _ => true
  | .chipData4 _ => true
  | .chipData5 _ => true
  | .chipData6 _ => true
  | .chipData7 _ => true
  | .chipData8 _ => true
  | .chipData9 _ => true
  | .chipDataB _ => true
  | .chipDataD _ => true
  | .chipDataE _ => true
  | .decode _ _ => true
  | .cwEq a b => a.inRange && b.inRange
  | .secFromCol col => coordinateOk col
  | .dcolFromCol col => coordinateOk col
  | .coreprFromRow row => coordinateOk row
  | .masterFromRow row => coordinateOk row
  | .idxFromPos row col => coordinateOk row && coordinateOk col
  | .masterIdx p => p.inRange
  | .pixelsOf p => p.inRange
  | .extendTs _ tsFpga _ => tsFpgaOk tsFpga
  | .isComplete sub => sub.all Packet.inRange
  | .receive _ p => p.inRange
  | .receiveWord _ _ => true
  | .pop _ index _ => decide (0 ≤ index)
  | .read _ index _ => decide (0 ≤ index)
  | .extend _ _ => true
  | .startReader _ => true
  | .stopReader _ => true
  | .checkMarker sub expected => sub.all Packet.inRange && expected.inRange
  | .newSequence timeout => (timeoutOperand timeout).isPositive
  | .squash packets _ => packets.all ChipData.inRange
  | .classify tps hits _ _ => sortedAscending tps && hits.all ChipData.inRange

end Sys2Proof
end

