-- ==== Sys2Proof/Decode.lean ====
section
/-! DEFINITION. The word formats (30_encoding.md): byte and field extraction, the decoder, the encoder of each table
row, and the canonical encoder of R81. Commands have no binary encoding (R82, D32). -/

namespace Sys2Proof

/-- Byte `i` of a RawWord, byte 0 the least significant (R50). -/
def byte (w : RawWord) (i : Nat) : U8 := w.extractLsb' (8 * i) 8

/-- The control field `w[63:60]` (R70). -/
def ctl (w : RawWord) : BitVec 4 := w.extractLsb' 60 4

/-- The fields of a ChipData word (R72, R76). -/
def chipFields (w : RawWord) : ChipFields where
  ser := w.extractLsb' 56 4
  tsFpga := w.extractLsb' 32 24
  ts := w.extractLsb' 24 8
  sec := w.extractLsb' 20 4
  col := w.extractLsb' 16 4
  corepr := w.extractLsb' 9 7
  hitmap := w.extractLsb' 1 8
  bottom := w.getLsbD 0

/-- `ts` of a TestPulse word, `w[23:0]` (R73). -/
def tpTs (w : RawWord) : BitVec 24 := w.extractLsb' 0 24

/-- `message` of a CustomWord word, `w[55:8]` (R74). -/
def cwMessage (w : RawWord) : BitVec 48 := w.extractLsb' 8 48

/-- `payload` of a CustomWord word, `w[7:0]` (R74). -/
def cwPayload (w : RawWord) : U8 := w.extractLsb' 0 8

/-- The row of a ChipData control value (R71). The values 0xA, 0xC and 0xF do not reach it from `decode`; the last
arm is 0xE. -/
def chipInstr (c : BitVec 4) (f : ChipFields) : Instr :=
  match c.toNat with
  | 0x0 => .chipData0 f
  | 0x1 => .chipData1 f
  | 0x2 => .chipData2 f
  | 0x3 => .chipData3 f
  | 0x4 => .chipData4 f
  | 0x5 => .chipData5 f
  | 0x6 => .chipData6 f
  | 0x7 => .chipData7 f
  | 0x8 => .chipData8 f
  | 0x9 => .chipData9 f
  | 0xB => .chipDataB f
  | 0xD => .chipDataD f
  | _ => .chipDataE f

/-- The class map of R71, total: no RawWord is illegal (R77). Don't-care bits are not kept (R78). -/
def decode (w : RawWord) : Instr :=
  if ctl w = 0xF#4 then .ovf
  else if ctl w = 0xA#4 then .tp (tpTs w)
  else if ctl w = 0xC#4 then .cw (cwMessage w) (cwPayload w)
  else chipInstr (ctl w) (chipFields w)

/-- Why a bit string is no word. -/
inductive DecodeReject
  /-- It has more than 64 bits: "Every RawWord is exactly 64 bits" (R70). -/
  | longerThanOneWord (nbits : Nat)
deriving DecidableEq, Repr

/-- The decoder over a bit string of `nbits` bits, the missing upper bits of the word 0; a longer one is rejected. -/
def decodeBits (nbits w : Nat) : Except DecodeReject Instr :=
  if nbits ≤ 64 then .ok (decode (BitVec.ofNat 64 (w % 2 ^ nbits))) else .error (.longerThanOneWord nbits)

/-- What the decoder reads from a table row's word. Log 20. -/
def decodeTableWord (nbits w : Nat) : Option Instr :=
  match decodeBits nbits w with
  | .ok i => some i
  | .error _ => none

/-- A ChipData word with control value `c` (R72, R81). -/
def chipWord (c : BitVec 4) (f : ChipFields) : RawWord :=
  (c.setWidth 64 <<< 60) ||| (f.ser.setWidth 64 <<< 56) ||| (f.tsFpga.setWidth 64 <<< 32)
    ||| (f.ts.setWidth 64 <<< 24) ||| (f.sec.setWidth 64 <<< 20) ||| (f.col.setWidth 64 <<< 16)
    ||| (f.corepr.setWidth 64 <<< 9) ||| (f.hitmap.setWidth 64 <<< 1) ||| (BitVec.ofBool f.bottom).setWidth 64

/-- A TestPulse word, don't-care bits 59:24 zero (R73, R81). -/
def tpWord (ts : BitVec 24) : RawWord := (0xA#64 <<< 60) ||| ts.setWidth 64

/-- A CustomWord word, don't-care bits 59:56 zero (R74, R81). -/
def cwWord (message : BitVec 48) (payload : U8) : RawWord :=
  (0xC#64 <<< 60) ||| (message.setWidth 64 <<< 8) ||| payload.setWidth 64

/-- A TimestampOverflow word, don't-care bits zero (R75, R81). -/
def ovfWord : RawWord := 0xF#64 <<< 60

/-- The word of an instruction, with its table row's control value; a command has none (R82). Log 19. -/
def encode : Instr → Option RawWord
  | .ovf => some ovfWord
  | .tp ts => some (tpWord ts)
  | .cw message payload => some (cwWord message payload)
  | .chipData0 f => some (chipWord 0x0#4 f)
  | .chipData1 f => some (chipWord 0x1#4 f)
  | .chipData2 f => some (chipWord 0x2#4 f)
  | .chipData3 f => some (chipWord 0x3#4 f)
  | .chipData4 f => some (chipWord 0x4#4 f)
  | .chipData5 f => some (chipWord 0x5#4 f)
  | .chipData6 f => some (chipWord 0x6#4 f)
  | .chipData7 f => some (chipWord 0x7#4 f)
  | .chipData8 f => some (chipWord 0x8#4 f)
  | .chipData9 f => some (chipWord 0x9#4 f)
  | .chipDataB f => some (chipWord 0xB#4 f)
  | .chipDataD f => some (chipWord 0xD#4 f)
  | .chipDataE f => some (chipWord 0xE#4 f)
  | .decode _ _ => none
  | .cwEq _ _ => none
  | .secFromCol _ => none
  | .dcolFromCol _ => none
  | .coreprFromRow _ => none
  | .masterFromRow _ => none
  | .idxFromPos _ _ => none
  | .masterIdx _ => none
  | .pixelsOf _ => none
  | .extendTs _ _ _ => none
  | .isComplete _ => none
  | .receive _ _ => none
  | .receiveWord _ _ => none
  | .pop _ _ _ => none
  | .read _ _ _ => none
  | .extend _ _ => none
  | .startReader _ => none
  | .stopReader _ => none
  | .checkMarker _ _ => none
  | .newSequence _ => none
  | .squash _ _ => none
  | .classify _ _ _ _ => none

/-- A packet's word fields at their widths in the word. -/
def ChipData.wordFields (p : ChipData) : ChipFields where
  ser := p.ser.setWidth 4
  tsFpga := p.tsFpga.setWidth 24
  ts := p.ts
  sec := p.sec.setWidth 4
  col := p.col.setWidth 4
  corepr := p.corepr.setWidth 7
  hitmap := p.hitmap
  bottom := p.bottom

/-- The canonical encoder of R81: ChipData with control value 0, don't-care bits 0; it refuses a field outside its
range and a CustomWord without payload. -/
def encodePacket (p : Packet) : Option RawWord :=
  if p.inRange then
    match p with
    | .chipData q => some (chipWord 0x0#4 q.wordFields)
    | .testPulse q => some (tpWord (q.ts.setWidth 24))
    | .customWord m => m.payload.map (cwWord (m.message.setWidth 48))
  else none

/-- A word with the don't-care bits of its class cleared (R78): what decoding keeps of it, and its control value. -/
def clearDontCare (w : RawWord) : RawWord :=
  if ctl w = 0xF#4 then w &&& 0xF000000000000000#64
  else if ctl w = 0xA#4 then w &&& 0xF000000000FFFFFF#64
  else if ctl w = 0xC#4 then w &&& 0xF0FFFFFFFFFFFFFF#64
  else w

/-- A word row of spec/opcode_table.json: its mnemonic, `match` and `mask`. -/
structure OpcodeRow where
  mnemonic : String
  matchBits : RawWord
  mask : RawWord
deriving DecidableEq, Repr

/-- Does a word belong to a row? -/
def OpcodeRow.fits (r : OpcodeRow) (w : RawWord) : Bool := decide (w &&& r.mask = r.matchBits)

/-- A row of the table from its control value; every row's mask is the control field. -/
def opcodeRow (mnemonic : String) (c : BitVec 4) : OpcodeRow :=
  ⟨mnemonic, c.setWidth 64 <<< 60, 0xF000000000000000#64⟩

/-- The sixteen word rows of spec/opcode_table.json, in its order. -/
def opcodeTable : List OpcodeRow :=
  [opcodeRow "OVF" 0xF#4, opcodeRow "TP" 0xA#4, opcodeRow "CW" 0xC#4, opcodeRow "CHIPDATA_0" 0x0#4,
    opcodeRow "CHIPDATA_1" 0x1#4, opcodeRow "CHIPDATA_2" 0x2#4, opcodeRow "CHIPDATA_3" 0x3#4,
    opcodeRow "CHIPDATA_4" 0x4#4]
  ++ [opcodeRow "CHIPDATA_5" 0x5#4, opcodeRow "CHIPDATA_6" 0x6#4, opcodeRow "CHIPDATA_7" 0x7#4,
    opcodeRow "CHIPDATA_8" 0x8#4, opcodeRow "CHIPDATA_9" 0x9#4, opcodeRow "CHIPDATA_B" 0xB#4,
    opcodeRow "CHIPDATA_D" 0xD#4, opcodeRow "CHIPDATA_E" 0xE#4]

/-- The mnemonic of a word instruction's row; a command's row has no encoding. -/
def Instr.wordMnemonic : Instr → Option String
  | .ovf => some "OVF"
  | .tp _ => some "TP"
  | .cw _ _ => some "CW"
  | .chipData0 _ => some "CHIPDATA_0"
  | .chipData1 _ => some "CHIPDATA_1"
  | .chipData2 _ => some "CHIPDATA_2"
  | .chipData3 _ => some "CHIPDATA_3"
  | .chipData4 _ => some "CHIPDATA_4"
  | .chipData5 _ => some "CHIPDATA_5"
  | .chipData6 _ => some "CHIPDATA_6"
  | .chipData7 _ => some "CHIPDATA_7"
  | .chipData8 _ => some "CHIPDATA_8"
  | .chipData9 _ => some "CHIPDATA_9"
  | .chipDataB _ => some "CHIPDATA_B"
  | .chipDataD _ => some "CHIPDATA_D"
  | .chipDataE _ => some "CHIPDATA_E"
  | .decode _ _ => none
  | .cwEq _ _ => none
  | .secFromCol _ => none
  | .dcolFromCol _ => none
  | .coreprFromRow _ => none
  | .masterFromRow _ => none
  | .idxFromPos _ _ => none
  | .masterIdx _ => none
  | .pixelsOf _ => none
  | .extendTs _ _ _ => none
  | .isComplete _ => none
  | .receive _ _ => none
  | .receiveWord _ _ => none
  | .pop _ _ _ => none
  | .read _ _ _ => none
  | .extend _ _ => none
  | .startReader _ => none
  | .stopReader _ => none
  | .checkMarker _ _ => none
  | .newSequence _ => none
  | .squash _ _ => none
  | .classify _ _ _ _ => none

end Sys2Proof
end

