-- ==== Sys2Proof/Machine/State.lean ====
section
/-! DEFINITION. The state of the CORE and of the agents around it (10_state.md), as plain data, the reasons a step
stops, and reset. -/

namespace Sys2Proof.Machine

/-- Who can hold a Sequence's lock: a caller, or the reader agent of a Sequence (R6). -/
inductive Agent
  | caller (k : Nat)
  | reader (h : Nat)
deriving DecidableEq, Repr

/-- The phases of a reader agent (R30). -/
inductive Phase
  | idle
  | reading
  | folding
deriving DecidableEq, Repr

/-- `S.reader` (R30). -/
structure Reader where
  enabled : Bool
  phase : Phase
  batch : List RawWord
deriving DecidableEq, Repr

/-- A Sequence (R28). `lock = none` is "free". `consumed` records that an `EXTEND` has consumed it (R168, R247 (f)). -/
structure Sequence where
  queue : List SubSequence
  tsSw : U32
  lock : Option Agent
  reader : Reader
  timeout : Seconds
  consumed : Bool
deriving DecidableEq, Repr

/-- The reader state at reset (R30, R271). -/
def Reader.stopped : Reader := ⟨false, .idle, []⟩

/-- A Sequence at its reset, its creation (R28, R176, R270, R271). -/
def Sequence.fresh (timeout : Seconds) : Sequence :=
  ⟨[], 0, none, Reader.stopped, timeout, false⟩

/-- `POP` or `READ` (R31). -/
inductive WaitKind
  | pop
  | read
deriving DecidableEq, Repr

/-- A blocking command in progress (R31). `bound` is its wait bound (R167); no rule reads it (R258). -/
structure Pending where
  seq : Nat
  kind : WaitKind
  index : Nat
  readerActive : Bool
  bound : Seconds
deriving DecidableEq, Repr

/-- The five error kinds with what each carries (R241-R245). -/
inductive Error
  | pixelOutOfRange (p : ChipData)
  | popTimedOut (index : Nat)
  | popIndexOutOfRange (index length : Nat)
  | controlMarkerMismatch (expected : CustomWord) (last : Option Packet) (snapshot : List Packet)
  | strictSmartReadout (count : Nat)
deriving DecidableEq, Repr

/-- What a completed command returns to its caller: a result of R82 or an error (R240). `done` is "none". -/
inductive Reply
  | packet (p : Option Packet)
  | bool (b : Bool)
  | number (n : Nat)
  | pixels (ps : List Pixel)
  | timestamp (t : U32)
  | done
  | sub (q : SubSequence)
  | sequence (h : Nat)
  | squashed (out : List ChipData) (dropped : Nat)
  | tags (ts : List Tag)
  | error (e : Error)
deriving DecidableEq, Repr

/-- The counter handle `c` a word is decoded against (R100): a counter of the issuing caller, or the `ts_sw` of a
Sequence, whose queue then receives the packet (R162). Log 5. -/
inductive Port
  | counter (c : Nat)
  | sequence (h : Nat)
deriving DecidableEq, Repr

/-- One item a caller issues: a RawWord on the word interface with its counter handle, or a command (R82). A word
instruction in the place of a command: log 25. -/
inductive Item
  | word (port : Port) (w : RawWord)
  | command (i : Instr)
deriving DecidableEq, Repr

/-- A caller (R6): what it will still issue, its blocking command in progress (R31), the counters it owns (R100) and
what its commands returned, newest first (R240). Logs 2, 4, 6. -/
structure Caller where
  program : List Item
  pending : Option Pending
  counters : List U32
  replies : List Reply
deriving DecidableEq, Repr

/-- A caller that has issued nothing and will issue nothing. -/
def Caller.idle : Caller := ⟨[], none, [], []⟩

/-- What the transport answers to a `readout()` (R171, R172): words, "no data", or the end at its own idle timeout. -/
inductive Readout
  | words (ws : List RawWord)
  | noData
  | idleTimeout
deriving DecidableEq, Repr

/-- One turn: which agent takes the next step. A caller's turn says whether it takes the timeout that R164 allows
(log 15). A reader's turn carries the transport's answer, read only where the step is RETURN (log 14). -/
inductive Turn
  | caller (k : Nat) (expire : Bool)
  | reader (h : Nat) (answer : Readout)
deriving DecidableEq, Repr

/-- The whole machine: the Sequences (a handle is a place in the list, R29), the callers (a number past the end is an
idle caller), the turns to come (R57, log 1), and what the present step runs under: the issuing caller, its timeout
choice and its word port. -/
structure State where
  seqs : List Sequence
  callers : List Caller
  schedule : List Turn
  issuer : Nat
  expire : Bool
  port : Port
deriving DecidableEq, Repr

/-- Why the machine stops with a fault. -/
inductive Fault
  /-- Raised by an atomic lock body that finds the lock of Sequence `h` held: the agent is stuck (I21). No step leaves a
  lock held (R58), so no run from reset raises it. Safe: the machine stops. Log 7. -/
  | lockHeld (h : Nat)
deriving DecidableEq, Repr

/-- Why the machine refuses. All but `notModelled` and `noSuchSequence` are the cases of R247. -/
inductive Refusal
  /-- Raised by an arm of `exec` whose instruction has no meaning. Safe. -/
  | notModelled (mnemonic : String)
  /-- Raised by a coordinate function whose operand is outside 0..511 (R247 (a)). Safe: the machine stops. -/
  | coordinateOutOfRange
  /-- Raised by `EXTEND_TS` with `ts_fpga >= 2^24` (R247 (b)). Safe. -/
  | tsFpgaOutOfRange
  /-- Raised by `CLASSIFY` with `tps` not sorted (R247 (c)). Safe. -/
  | tpsNotSorted
  /-- Raised by `POP` and `READ` with a negative index (R247 (d)). Safe. -/
  | negativeIndex
  /-- Raised by `NEW_SEQUENCE` with a timeout that is not positive (R247 (e)). Safe. -/
  | timeoutNotPositive
  /-- Raised by a command that names a Sequence an `EXTEND` has consumed (R247 (f)). Safe. -/
  | consumedSequence (h : Nat)
  /-- Raised by a command with a packet field outside its declared range (R247 (g)). Safe. -/
  | fieldOutOfRange
  /-- Raised by a command whose handle names no Sequence created so far; the handle is no operand of the command's
  type (R82). Safe. Log 8. -/
  | noSuchSequence (h : Nat)
deriving DecidableEq, Repr

/-- The outcome of a step. -/
abbrev Result := Host.Outcome State Fault Refusal

/-- Reset: no Sequence exists, no caller has anything to issue or wait for, no turn is scheduled. The last three
fields are the model's own. Log 18. -/
def State.reset : State := ⟨[], [], [], 0, false, .counter 0⟩

end Sys2Proof.Machine
end

