-- ==== Sys2Proof/Machine/Flags.lean ====
section
/-! DEFINITION. The status flags of R34: completeness of a SubSequence, and the reader's `enabled`. The lock, flag (c),
is in Ops.lean. -/

namespace Sys2Proof.Machine

/-- The last packet is a CustomWord. -/
def isMarker : Packet → Bool
  | .customWord _ => true
  | .chipData _ => false
  | .testPulse _ => false

/-- R27, R160: completeness is a function of the contents. -/
def isComplete (sub : SubSequence) : Bool :=
  match sub.getLast? with
  | some p => isMarker p
  | none => false

/-- The last SubSequence of a queue exists and is incomplete: a packet or a merge goes into it (R161, R168). -/
def hasOpen (queue : List SubSequence) : Bool :=
  match queue.getLast? with
  | some sub => !isComplete sub
  | none => false

/-- R169, R170: the only writers of `S.reader.enabled`. -/
def setEnabled (on : Bool) (q : Sequence) : Sequence := { q with reader := { q.reader with enabled := on } }

end Sys2Proof.Machine
end

