-- ==== Sys2Proof/Machine/Ops.lean ====
section
/-! DEFINITION. The shared operations over the state: the caller's record, its counters and replies, a Sequence under
its lock, and how a command ends, an error being one way (R240). -/

namespace Sys2Proof.Machine

/-- Write place `k` of a list, filling the places before it with `d`. -/
def padSet {α : Type} (d : α) : Nat → α → List α → List α
  | 0, v, [] => [v]
  | 0, v, _ :: rest => v :: rest
  | k + 1, v, [] => d :: padSet d k v []
  | k + 1, v, x :: rest => x :: padSet d k v rest

/-- The record of caller `k`. -/
def State.caller (s : State) (k : Nat) : Caller := s.callers.getD k Caller.idle

/-- Replace the record of caller `k`. -/
def State.putCaller (s : State) (k : Nat) (c : Caller) : State :=
  { s with callers := padSet Caller.idle k c s.callers }

/-- Replace the Sequence at handle `h`. -/
def State.putSeq (s : State) (h : Nat) (q : Sequence) : State := { s with seqs := s.seqs.set h q }

/-- The issuer's counter `c` (R100). -/
def State.counter (s : State) (c : Nat) : U32 := (s.caller s.issuer).counters.getD c 0

/-- Write the issuer's counter `c` (R101); a value it already has writes nothing. -/
def State.putCounter (s : State) (c : Nat) (v : U32) : State :=
  if v = s.counter c then s
  else
    s.putCaller s.issuer
      { s.caller s.issuer with counters := padSet 0 c v (s.caller s.issuer).counters }

/-- Return a result to the issuer (R255). -/
def State.reply (s : State) (r : Reply) : State :=
  s.putCaller s.issuer { s.caller s.issuer with replies := r :: (s.caller s.issuer).replies }

/-- Set or clear the issuer's blocking command (R31). -/
def State.setPending (s : State) (p : Option Pending) : State :=
  s.putCaller s.issuer { s.caller s.issuer with pending := p }

/-- A command that completes with a result and no other state change. -/
def State.finish (s : State) (r : Reply) : Result := .next (s.reply r)

/-- Raising an error, the one shared operation (R240, R249): the error goes to the caller in place of the result, and
nothing else changes; no mode, vector or saved state exists. -/
def State.raise (s : State) (e : Error) : Result := s.finish (.error e)

/-- The code of an error kind (R240-R245). -/
def Error.code : Error → Nat
  | .pixelOutOfRange _ => 1
  | .popTimedOut _ => 2
  | .popIndexOutOfRange _ _ => 3
  | .controlMarkerMismatch _ _ _ => 4
  | .strictSmartReadout _ => 5

/-- The recovery class of an error kind: `true` is recoverable, `false` is fatal to the batch or phase (R250). -/
def Error.recoverable : Error → Bool
  | .pixelOutOfRange _ => false
  | .popTimedOut _ => true
  | .popIndexOutOfRange _ _ => true
  | .controlMarkerMismatch _ _ _ => false
  | .strictSmartReadout _ => false

/-- How a lock body ends for the agent that ran it. -/
inductive Ending
  /-- The command completes with this result or error. -/
  | answer (r : Reply)
  /-- The command stays pending (R163). -/
  | wait (p : Pending)
  /-- An agent's step that returns nothing to a caller. -/
  | quiet
deriving DecidableEq, Repr

/-- Carry out an ending on the state. -/
def State.conclude (s : State) : Ending → State
  | .answer r => s.reply r
  | .wait p => s.setPending (some p)
  | .quiet => s

/-- `lock(S) { body }` as one atomic step (R56): take the lock for `who`, run the body, free the lock, conclude. A lock
found held is the fault of I21 (log 7). -/
def State.locked (s : State) (h : Nat) (who : Agent) (body : Sequence → Sequence × Ending) : Result :=
  match s.seqs[h]? with
  | none => .refused (.noSuchSequence h)
  | some q =>
    match q.lock with
    | some _ => .fault (.lockHeld h)
    | none =>
      .next ((s.putSeq h { (body { q with lock := some who }).1 with lock := none }).conclude
        (body { q with lock := some who }).2)

/-- The Sequence a command names: it must exist (log 8) and not be consumed (R247 (f)). -/
def State.named (s : State) (h : Nat) : Except Refusal Sequence :=
  match s.seqs[h]? with
  | none => .error (.noSuchSequence h)
  | some q => if q.consumed then .error (.consumedSequence h) else .ok q

/-- A command of the issuer that runs one lock body on the Sequence it names. -/
def State.commandOn (s : State) (h : Nat) (body : Sequence → Sequence × Ending) : Result :=
  match s.named h with
  | .error r => .refused r
  | .ok _ => s.locked h (.caller s.issuer) body

/-- A command that runs only if its operands meet their precondition; otherwise it is refused, before anything else
(R247, R248). -/
def guarded (ok : Bool) (r : Refusal) (run : Result) : Result := if ok then run else .refused r

end Sys2Proof.Machine
end

