-- ==== Sys2Proof/Machine/AddressModel.lean ====
section
/-! DEFINITION. The Address Model (41_address_model.md). -/

namespace Sys2Proof.Machine

/-- R120. -/
def secFromCol (col : U16) : Nat := (col >>> 5).toNat

/-- R121. -/
def dcolFromCol (col : U16) : Nat := ((col >>> 1) &&& 0xF#16).toNat

/-- R122. -/
def coreprFromRow (row : U16) : Nat := (row >>> 2).toNat

/-- R123. -/
def masterFromRow (row : U16) : Nat := ((row >>> 1) &&& 1#16).toNat

/-- R124. -/
def idxFromPos (row col : U16) : Nat := (row &&& 1#16).toNat * 2 + (col &&& 1#16).toNat

/-- R125: the address of the packet's pixel-region master register. -/
def masterIdx (p : ChipData) : Nat := (p.sec.toNat * 16 + p.col.toNat) * 128 + p.corepr.toNat

/-- The region that hitmap bit `pix` is placed in: `corepr'` of R126. -/
def regionOf (p : ChipData) (pix : Nat) : Nat :=
  if pix > 3 then p.corepr.toNat else p.corepr.toNat + 1 - p.bottom.toNat

/-- `row` of R126 for hitmap bit `pix`, exact. -/
def pixelRow (p : ChipData) (pix : Nat) : Nat :=
  (if pix > 3 then 2 else 0) + regionOf p pix * 4 + (if pix % 4 > 1 then 1 else 0)

/-- `col` of R126 for hitmap bit `pix`, exact. -/
def pixelCol (p : ChipData) (pix : Nat) : Nat := p.sec.toNat * 32 + p.col.toNat * 2 + pix % 2

/-- The set hitmap bits, ascending (R126). -/
def setBits (p : ChipData) : List Nat := (List.range 8).filter (fun pix => p.hitmap.getLsbD pix)

/-- The range test of R126 for one bit. -/
def pixelInMatrix (p : ChipData) (pix : Nat) : Bool :=
  decide (pixelRow p pix < Config.matrixSize) && decide (pixelCol p pix < Config.matrixSize)

/-- The pixel of one bit, once in range. -/
def pixelAt (p : ChipData) (pix : Nat) : Pixel :=
  ⟨BitVec.ofNat 16 (pixelRow p pix), BitVec.ofNat 16 (pixelCol p pix)⟩

/-- R126, R127: the pixels in ascending bit order, or nothing at all when one of them is out of range. -/
def pixelsOf (p : ChipData) : Option (List Pixel) :=
  if (setBits p).all (pixelInMatrix p) then some ((setBits p).map (pixelAt p)) else none

/-- `SEC_FROM_COL` (R120). -/
def execSecFromCol (col : U16) (s : State) : Result :=
  guarded (coordinateOk col) .coordinateOutOfRange (s.finish (.number (secFromCol col)))

/-- `DCOL_FROM_COL` (R121). -/
def execDcolFromCol (col : U16) (s : State) : Result :=
  guarded (coordinateOk col) .coordinateOutOfRange (s.finish (.number (dcolFromCol col)))

/-- `COREPR_FROM_ROW` (R122). -/
def execCoreprFromRow (row : U16) (s : State) : Result :=
  guarded (coordinateOk row) .coordinateOutOfRange (s.finish (.number (coreprFromRow row)))

/-- `MASTER_FROM_ROW` (R123). -/
def execMasterFromRow (row : U16) (s : State) : Result :=
  guarded (coordinateOk row) .coordinateOutOfRange (s.finish (.number (masterFromRow row)))

/-- `IDX_FROM_POS` (R124). -/
def execIdxFromPos (row col : U16) (s : State) : Result :=
  guarded (coordinateOk row && coordinateOk col) .coordinateOutOfRange
    (s.finish (.number (idxFromPos row col)))

/-- `MASTER_IDX` (R125). -/
def execMasterIdx (p : ChipData) (s : State) : Result :=
  guarded p.inRange .fieldOutOfRange (s.finish (.number (masterIdx p)))

/-- `PIXELS_OF` (R126): the pixels, or `PixelOutOfRange` with the packet's fields (R127, R241). -/
def execPixelsOf (p : ChipData) (s : State) : Result :=
  guarded p.inRange .fieldOutOfRange
    (match pixelsOf p with
    | some ps => s.finish (.pixels ps)
    | none => s.raise (.pixelOutOfRange p))

end Sys2Proof.Machine
end

