-- ==== Sys2Proof/Machine/Squash.lean ====
section
/-! DEFINITION. The Squash/Merge Engine (44_squash_merge.md), with its parallel form (R205). -/

namespace Sys2Proof.Machine

/-- Put `a` in front of the first element it may precede. -/
def stableInsert {α : Type} (before : α → α → Bool) (a : α) : List α → List α
  | [] => [a]
  | b :: rest => if before a b then a :: b :: rest else b :: stableInsert before a rest

/-- A stable sort: elements that may precede each other keep their input order (R203, R222). -/
def stableSort {α : Type} (before : α → α → Bool) : List α → List α
  | [] => []
  | a :: rest => stableInsert before a (stableSort before rest)

/-- R201. -/
def smartOnly (p : ChipData) : Bool := !p.bottom && decide (p.hitmap &&& 0xF#8 = 0#8)

/-- R203: descending `master_idx`, equal keys in input order. -/
def sortByMaster (packets : List ChipData) : List ChipData :=
  stableSort (fun a b => decide (masterIdx b ≤ masterIdx a)) packets

/-- Mark an accumulator finalized (R204). -/
def finalize (p : ChipData) : ChipData := { p with bottom := true }

/-- R204 from an accumulator on. -/
def passFrom (acc : ChipData) : List ChipData → List ChipData
  | [] => [finalize acc]
  | p :: rest =>
    if masterIdx p ≠ masterIdx acc then finalize acc :: passFrom p rest
    else passFrom { acc with hitmap := acc.hitmap ||| p.hitmap } rest

/-- `PASS` (R204). -/
def pass : List ChipData → List ChipData
  | [] => []
  | p :: rest => passFrom p rest

/-- The number of partitions of the parallel form (R205, R12). -/
def partitionCount (n : Nat) : Nat := min (max (n / Config.squashChunk) 1) Config.squashMaxParts

/-- Contiguous partitions of the given sizes, in order (R205). -/
def partitions (sizes : List Nat) (arr : List ChipData) : List (List ChipData) :=
  match sizes with
  | [] => []
  | n :: rest => arr.take n :: partitions rest (arr.drop n)

/-- The parallel form (R205): `PASS` on each partition, then once more over the concatenation. -/
def passParallel (sizes : List Nat) (arr : List ChipData) : List ChipData :=
  pass ((partitions sizes arr).flatMap pass)

/-- The list of R200. -/
def squash (packets : List ChipData) : List ChipData :=
  pass (sortByMaster (packets.filter (fun p => !smartOnly p)))

/-- The count of R200, R202. -/
def smartCount (packets : List ChipData) : Nat := (packets.filter smartOnly).length

/-- `SQUASH packets, strict` (R200); `StrictSmartReadout` before any sorting (R202, R245). -/
def execSquash (packets : List ChipData) (strict : Bool) (s : State) : Result :=
  guarded (packets.all ChipData.inRange) .fieldOutOfRange
    (if strict && decide (0 < smartCount packets) then s.raise (.strictSmartReadout (smartCount packets))
    else s.finish (.squashed (squash packets) (smartCount packets)))

end Sys2Proof.Machine
end

