-- ==== Sys2Proof/Machine/Classifier.lean ====
section
/-! DEFINITION. The Edge-Artifact Classifier (45_edge_classifier.md). -/

namespace Sys2Proof.Machine

/-- Is some timestamp of the list in the closed window (R223)? Exact integers. -/
def inWindow (times : List U32) (lo hi : Int) : Bool :=
  times.any (fun x => decide (lo ≤ (x.toNat : Int)) && decide ((x.toNat : Int) ≤ hi))

/-- `found_tp` (R220, R223). -/
def foundTp (tps : List U32) (tol : Tolerance) (t : U32) : Bool :=
  inWindow tps ((t.toNat : Int) - Config.tpOffset - tol.tpN.toInt) ((t.toNat : Int) - Config.tpOffset + tol.tpP.toInt)

/-- `found_fe` (R220, R223). -/
def foundFe (accepted : List U32) (tsDelta : U32) (tol : Tolerance) (t : U32) : Bool :=
  inWindow accepted ((t.toNat : Int) - (tsDelta.toNat : Int) - tol.feN.toInt)
    ((t.toNat : Int) - (tsDelta.toNat : Int) + tol.feP.toInt)

/-- The tag of R224. -/
def tagOf (tpFound feFound : Bool) : Tag :=
  match tpFound, feFound with
  | true, true => .ambiguous
  | true, false => .risingEdge
  | false, true => .fallingEdge
  | false, false => .isolated

/-- Insert into `accepted`, kept sorted (R224). -/
def accept (t : U32) (accepted : List U32) : List U32 :=
  stableInsert (fun a b => decide (a.toNat ≤ b.toNat)) t accepted

/-- The hits of one lane with their places, in the order they are processed (R221, R222). -/
def laneOrder (hits : List ChipData) (lane : Nat) : List (ChipData × Nat) :=
  stableSort (fun a b => decide (a.1.tsExt.toNat ≤ b.1.tsExt.toNat))
    (hits.zipIdx.filter (fun h => decide (h.1.ser.toNat = lane)))

/-- The loop of R220 over one lane's ordered hits: each place with its tag. -/
def tagLane (tps : List U32) (tsDelta : U32) (tol : Tolerance) :
    List U32 → List (ChipData × Nat) → List (Nat × Tag)
  | _, [] => []
  | accepted, (h, i) :: rest =>
    let tp := foundTp tps tol h.tsExt
    let fe := foundFe accepted tsDelta tol h.tsExt
    (i, tagOf tp fe)
      :: tagLane tps tsDelta tol (if tp then accept h.tsExt accepted else accepted) rest

/-- All lanes, each with its own `accepted`, empty at first (R221). -/
def tagAll (tps : List U32) (hits : List ChipData) (tsDelta : U32) (tol : Tolerance) : List (Nat × Tag) :=
  (List.range Config.laneCount).flatMap (fun lane => tagLane tps tsDelta tol [] (laneOrder hits lane))

/-- The tags in the hits' input order (R220, R226): every hit is on one of the 16 lanes, so every place is tagged once. -/
def classify (tps : List U32) (hits : List ChipData) (tsDelta : U32) (tol : Tolerance) : List Tag :=
  (stableSort (fun a b => decide (a.1 ≤ b.1)) (tagAll tps hits tsDelta tol)).map (fun x => x.2)

/-- `CLASSIFY` (R220); an unsorted `tps` is refused (R225). No hit is changed (R226). -/
def execClassify (tps : List U32) (hits : List ChipData) (tsDelta : U32) (tol : Tolerance) (s : State) : Result :=
  guarded (sortedAscending tps) .tpsNotSorted
    (guarded (hits.all ChipData.inRange) .fieldOutOfRange
      (s.finish (.tags (classify tps hits tsDelta tol))))

end Sys2Proof.Machine
end

