-- ==== Sys2Proof/Machine/Timestamp.lean ====
section
/-! DEFINITION. The Timestamp Extension unit (42_timestamp_extension.md). -/

namespace Sys2Proof.Machine

/-- R140: the extended timestamp of a ChipData, all arithmetic modulo 2^32. -/
def extendTs (ts : U8) (tsFpga tsSw : U32) : U32 :=
  let msb := tsFpga &&& 0xFFFF00#32
  let lsb := tsFpga &&& 0xFF#32
  let ts32 := ts.setWidth 32
  let msb' := if lsb < ts32 then msb - 0x100#32 else msb
  (tsSw <<< 24) ||| msb' ||| ts32

/-- R141 with the mode as a parameter: RAW gives `ts`; WITH_SW is the value no rule uses. -/
def tpExtIn (mode : TpExtMode) (ts tsSw : U32) : U32 :=
  match mode with
  | .raw => ts
  | .withSw => (tsSw <<< 24) ||| ts

/-- R141: the extended timestamp of a TestPulse in the decided mode. -/
def tpExt (ts tsSw : U32) : U32 := tpExtIn Config.tpExtMode ts tsSw

/-- R142: rebase one packet, by its pseudocode. A caller-built packet whose `ts_ext` is not that of its fields gets the
recomputed one, a ChipData also at base 0 and a TestPulse at every base, where R142's corner cases keep it (DEDUCED,
log 21). -/
def rebase (base : U32) : Packet → Packet
  | .chipData p =>
    .chipData { p with tsSw := p.tsSw + base, tsExt := extendTs p.ts p.tsFpga (p.tsSw + base) }
  | .testPulse p => .testPulse { p with tsSw := p.tsSw + base, tsExt := tpExt p.ts (p.tsSw + base) }
  | .customWord m => .customWord m

/-- `EXTEND_TS` (R140); refused where `ts_fpga >= 2^24` (R247 (b)). -/
def execExtendTs (ts : U8) (tsFpga tsSw : U32) (s : State) : Result :=
  guarded (tsFpgaOk tsFpga) .tsFpgaOutOfRange (s.finish (.timestamp (extendTs ts tsFpga tsSw)))

end Sys2Proof.Machine
end

