-- ==== Sys2Proof/Machine/Framing.lean ====
section
/-! DEFINITION. Framing of packets into SubSequences and concatenation of Sequences, on one Sequence's record
(43_sequence_assembler.md, sections 1 and 3). -/

namespace Sys2Proof.Machine

/-- The body of R161 on the queue: open a new SubSequence unless the last is open, then append the packet to the last. -/
def appendPacket (queue : List SubSequence) (p : Packet) : List SubSequence :=
  if hasOpen queue then queue.dropLast ++ [(queue.getLastD []) ++ [p]] else queue ++ [[p]]

/-- The body of R161. -/
def receivePacket (q : Sequence) (p : Packet) : Sequence := { q with queue := appendPacket q.queue p }

/-- What decoding one word gives: at most one packet, and the counter handle's new value (R100). -/
abbrev Decoded := Option Packet × U32

/-- R162: store the counter a decode left, and receive its packet if there is one. -/
def absorbDecoded (q : Sequence) (d : Decoded) : Sequence :=
  match d.1 with
  | some p => receivePacket { q with tsSw := d.2 } p
  | none => { q with tsSw := d.2 }

/-- R168 on the queues: merge the first absorbed SubSequence into an open last one, append the rest. -/
def concatQueues (queue absorbed : List SubSequence) : List SubSequence :=
  match absorbed with
  | [] => queue
  | first :: rest =>
    if hasOpen queue then queue.dropLast ++ (queue.getLastD [] ++ first) :: rest else queue ++ first :: rest

/-- R168: fold `other`'s queue and counter into `q`, rebasing by `q`'s counter before its own increment. -/
def extendSequence (q other : Sequence) : Sequence :=
  { q with
    queue := concatQueues q.queue (other.queue.map (List.map (rebase q.tsSw)))
    tsSw := q.tsSw + other.tsSw }

end Sys2Proof.Machine
end

