-- ==== Sys2Proof/Machine/WordDecoder.lean ====
section
/-! DEFINITION. The Word Decoder (40_word_decoder.md): what each word class gives against a counter, the word
instructions, `DECODE` and `CW_EQ`. -/

namespace Sys2Proof.Machine

/-- R101: no packet; the counter goes up by one, modulo 2^32. -/
def decodeOvf (c : U32) : Decoded := (none, c + 1)

/-- R102. -/
def decodeTp (ts : BitVec 24) (c : U32) : Decoded :=
  (some (.testPulse ⟨ts.setWidth 32, c, tpExt (ts.setWidth 32) c⟩), c)

/-- R103: decode always yields a payload. -/
def decodeCw (message : BitVec 48) (payload : U8) (c : U32) : Decoded :=
  (some (.customWord ⟨message.setWidth 64, some payload⟩), c)

/-- R104: the eight word fields zero-extended (R76), `ts_sw` the counter, `ts_ext` applied inline (R143). -/
def chipPacket (f : ChipFields) (c : U32) : ChipData where
  bottom := f.bottom
  hitmap := f.hitmap
  corepr := f.corepr.setWidth 8
  col := f.col.setWidth 8
  sec := f.sec.setWidth 8
  ts := f.ts
  tsFpga := f.tsFpga.setWidth 32
  ser := f.ser.setWidth 8
  tsSw := c
  tsExt := extendTs f.ts (f.tsFpga.setWidth 32) c

/-- R104. -/
def decodeChip (f : ChipFields) (c : U32) : Decoded := (some (.chipData (chipPacket f c)), c)

/-- R100: classify and decode one RawWord; total (R106). -/
def decodeWord (w : RawWord) (c : U32) : Decoded :=
  if ctl w = 0xF#4 then decodeOvf c
  else if ctl w = 0xA#4 then decodeTp (tpTs w) c
  else if ctl w = 0xC#4 then decodeCw (cwMessage w) (cwPayload w) c
  else decodeChip (chipFields w) c

/-- A word meets its counter handle (R100). A caller's counter: the packet is returned and the counter updated. A
Sequence's `ts_sw`: the lock body of R162, the packet received by the queue. -/
def State.present (s : State) (port : Port) (dec : U32 → Decoded) : Result :=
  match port with
  | .counter c => .next ((s.putCounter c (dec (s.counter c)).2).reply (.packet (dec (s.counter c)).1))
  | .sequence h => s.commandOn h (fun q => (absorbDecoded q (dec q.tsSw), .answer .done))

/-- OVF (R101). -/
def execOvf (s : State) : Result := s.present s.port decodeOvf

/-- TP (R102). -/
def execTp (ts : BitVec 24) (s : State) : Result := s.present s.port (decodeTp ts)

/-- CW (R103). -/
def execCw (message : BitVec 48) (payload : U8) (s : State) : Result :=
  s.present s.port (decodeCw message payload)

/-- CHIPDATA_0 (R104); like the other twelve, the control value is not recorded (R79). -/
def execChipData0 (f : ChipFields) (s : State) : Result := s.present s.port (decodeChip f)

/-- CHIPDATA_1 (R104). -/
def execChipData1 (f : ChipFields) (s : State) : Result := s.present s.port (decodeChip f)

/-- CHIPDATA_2 (R104). -/
def execChipData2 (f : ChipFields) (s : State) : Result := s.present s.port (decodeChip f)

/-- CHIPDATA_3 (R104). -/
def execChipData3 (f : ChipFields) (s : State) : Result := s.present s.port (decodeChip f)

/-- CHIPDATA_4 (R104). -/
def execChipData4 (f : ChipFields) (s : State) : Result := s.present s.port (decodeChip f)

/-- CHIPDATA_5 (R104). -/
def execChipData5 (f : ChipFields) (s : State) : Result := s.present s.port (decodeChip f)

/-- CHIPDATA_6 (R104). -/
def execChipData6 (f : ChipFields) (s : State) : Result := s.present s.port (decodeChip f)

/-- CHIPDATA_7 (R104). -/
def execChipData7 (f : ChipFields) (s : State) : Result := s.present s.port (decodeChip f)

/-- CHIPDATA_8 (R104). -/
def execChipData8 (f : ChipFields) (s : State) : Result := s.present s.port (decodeChip f)

/-- CHIPDATA_9 (R104). -/
def execChipData9 (f : ChipFields) (s : State) : Result := s.present s.port (decodeChip f)

/-- CHIPDATA_B (R104). -/
def execChipDataB (f : ChipFields) (s : State) : Result := s.present s.port (decodeChip f)

/-- CHIPDATA_D (R104). -/
def execChipDataD (f : ChipFields) (s : State) : Result := s.present s.port (decodeChip f)

/-- CHIPDATA_E (R104). -/
def execChipDataE (f : ChipFields) (s : State) : Result := s.present s.port (decodeChip f)

/-- `DECODE w, c` (R100): `c` names a counter the issuer owns. -/
def execDecode (w : RawWord) (c : Nat) (s : State) : Result := s.present (.counter c) (decodeWord w)

/-- R105: marker equality, an unset payload being "don't care". -/
def markerEq (a b : CustomWord) : Bool :=
  if a.message ≠ b.message then false
  else
    match a.payload, b.payload with
    | some x, some y => decide (x = y)
    | _, _ => true

/-- `CW_EQ a, b` (R105). -/
def execCwEq (a b : CustomWord) (s : State) : Result :=
  guarded (a.inRange && b.inRange) .fieldOutOfRange (s.finish (.bool (markerEq a b)))

end Sys2Proof.Machine
end

