-- ==== Sys2Proof/Machine/Assembler.lean ====
section
/-! DEFINITION. The commands of the Sequence Assembler (43_sequence_assembler.md). -/

namespace Sys2Proof.Machine

/-- `IS_COMPLETE sub` (R160). -/
def execIsComplete (sub : SubSequence) (s : State) : Result :=
  guarded (sub.all Packet.inRange) .fieldOutOfRange (s.finish (.bool (isComplete sub)))

/-- `RECEIVE S, p` (R161). A caller-built CustomWord without payload is received as any packet: R23 has such a marker
only to compare against, and R247 does not refuse it (DESIGN CHOICE, log 23). -/
def execReceive (h : Nat) (p : Packet) (s : State) : Result :=
  guarded p.inRange .fieldOutOfRange (s.commandOn h (fun q => (receivePacket q p, .answer .done)))

/-- R162 on the record. -/
def receiveWord (q : Sequence) (w : RawWord) : Sequence := absorbDecoded q (decodeWord w q.tsSw)

/-- `FEED` on the record (R84): the words one after another. -/
def feed (q : Sequence) (ws : List RawWord) : Sequence := ws.foldl receiveWord q

/-- `FEED S, ws` as the items a caller issues (R84). -/
def feedItems (h : Nat) (ws : List RawWord) : List Item := ws.map (fun w => .command (.receiveWord h w))

/-- `RECEIVE_WORD S, w` (R162). -/
def execReceiveWord (h : Nat) (w : RawWord) (s : State) : Result :=
  s.commandOn h (fun q => (receiveWord q w, .answer .done))

/-- What the completion of a `POP` or a `READ` leaves of the queue: the SubSequence removed, or nothing changed
(R163, R166). -/
def takeAt (kind : WaitKind) (index : Nat) (q : Sequence) : Sequence :=
  match kind with
  | .pop => { q with queue := q.queue.eraseIdx index }
  | .read => q

/-- May a blocking command complete now? With a reader active at issue the SubSequence must be complete (R163), without
one the bounds check is all (R165). -/
def ready (p : Pending) (sub : SubSequence) : Bool := !p.readerActive || isComplete sub

/-- The one lock body of `POP` and `READ`, at issue and at every later check: complete if the condition holds (R163,
R165, R166); else fail at once without a reader (R165); else time out if this turn takes the timeout (R164); else stay
pending. -/
def resolve (expire : Bool) (p : Pending) (q : Sequence) : Sequence × Ending :=
  let blocked : Ending :=
    if !p.readerActive then .answer (.error (.popIndexOutOfRange p.index q.queue.length))
    else if expire then .answer (.error (.popTimedOut p.index))
    else .wait p
  match q.queue[p.index]? with
  | some sub => if ready p sub then (takeAt p.kind p.index q, .answer (.sub sub)) else (q, blocked)
  | none => (q, blocked)

/-- The pending record of a command at issue: the reader's flag sampled once, under the lock (R163, D18), the bound the
operand or the Sequence's own (R167). -/
def pendingFor (h : Nat) (kind : WaitKind) (index : Nat) (timeout : Option Seconds) (q : Sequence) : Pending :=
  ⟨h, kind, index, q.reader.enabled, timeout.getD q.timeout⟩

/-- `POP S, index [, timeout]` (R163-R165, R167). -/
def execPop (h : Nat) (index : Int) (timeout : Option Seconds) (s : State) : Result :=
  guarded (decide (0 ≤ index)) .negativeIndex
    (s.commandOn h (fun q => resolve s.expire (pendingFor h .pop index.toNat timeout q) q))

/-- `READ S, index [, timeout]` (R166). -/
def execRead (h : Nat) (index : Int) (timeout : Option Seconds) (s : State) : Result :=
  guarded (decide (0 ≤ index)) .negativeIndex
    (s.commandOn h (fun q => resolve s.expire (pendingFor h .read index.toNat timeout q) q))

/-- A later check of the issuer's pending command (R163): the same lock body. It is taken off the caller and put back if
it must go on waiting. The Sequence may have been consumed since (log 9). -/
def State.recheck (s : State) (p : Pending) : Result :=
  (s.setPending none).locked p.seq (.caller s.issuer) (resolve s.expire p)

/-- `EXTEND S, other` (R168): `other` is marked consumed, its contents are left as they are (logs 9, 10); only the lock
of `S` is taken. -/
def execExtend (h other : Nat) (s : State) : Result :=
  match s.named h, s.named other with
  | .error r, _ => .refused r
  | .ok _, .error r => .refused r
  | .ok _, .ok o =>
    (s.putSeq other { o with consumed := true }).locked h (.caller s.issuer)
      (fun q => (extendSequence q o, .answer .done))

/-- `START_READER S` (R169). -/
def execStartReader (h : Nat) (s : State) : Result :=
  s.commandOn h (fun q => (setEnabled true q, .answer .done))

/-- `STOP_READER S` (R170): it does not wait for the agent. -/
def execStopReader (h : Nat) (s : State) : Result :=
  s.commandOn h (fun q => (setEnabled false q, .answer .done))

/-- The diagnostic snapshot: the last `min(DIAG_DEPTH, len(sub))` packets, oldest first (R173, R259). -/
def snapshot (sub : SubSequence) : List Packet := sub.drop (sub.length - Config.diagDepth)

/-- R173: the last packet is a CustomWord equal to the expected one by `CW_EQ`. -/
def markerMatches (sub : SubSequence) (expected : CustomWord) : Bool :=
  match sub.getLast? with
  | some (.customWord m) => markerEq m expected
  | some (.chipData _) => false
  | some (.testPulse _) => false
  | none => false

/-- `CHECK_MARKER sub, expected` (R173, R244). -/
def execCheckMarker (sub : SubSequence) (expected : CustomWord) (s : State) : Result :=
  guarded (sub.all Packet.inRange && expected.inRange) .fieldOutOfRange
    (if markerMatches sub expected then s.finish .done
    else s.raise (.controlMarkerMismatch expected sub.getLast? (snapshot sub)))

/-- `NEW_SEQUENCE timeout` (R176): the new handle is the next place of the list. -/
def execNewSequence (timeout : Option Seconds) (s : State) : Result :=
  guarded (timeoutOperand timeout).isPositive .timeoutNotPositive
    (State.finish { s with seqs := s.seqs ++ [Sequence.fresh (timeoutOperand timeout)] }
      (.sequence s.seqs.length))

end Sys2Proof.Machine
end

