-- ==== Sys2Proof/Machine/ReaderAgent.lean ====
section
/-! DEFINITION. The background reader agent of a Sequence: the steps ISSUE, RETURN and FOLD of R171. -/

namespace Sys2Proof.Machine

/-- The batch of a transport answer (R171): "no data" and the transport's timeout give the empty batch (R246 (a)). -/
def Readout.batch : Readout → List RawWord
  | .words ws => ws
  | .noData => []
  | .idleTimeout => []

/-- ISSUE: the readout is now in flight (R171). -/
def issueReadout (q : Sequence) : Sequence := { q with reader := { q.reader with phase := .reading } }

/-- RETURN: the answer is the batch (R171). -/
def returnReadout (answer : Readout) (q : Sequence) : Sequence :=
  { q with reader := { q.reader with phase := .folding, batch := answer.batch } }

/-- FOLD: decode the batch into a fresh, zero-origin Sequence and `EXTEND` S by it (R171, R272). R171 gives the fresh
Sequence no timeout; it takes that of S, and no step reads it (DESIGN CHOICE, log 24). -/
def foldBatch (q : Sequence) : Sequence :=
  { extendSequence q (feed (Sequence.fresh q.timeout) q.reader.batch) with
    reader := { q.reader with phase := .idle, batch := [] } }

/-- One turn of the reader agent of `h`: the step enabled in its phase, or none (R171). RETURN takes no lock (R58). -/
def State.readerTurn (s : State) (h : Nat) (answer : Readout) : Result :=
  match s.seqs[h]? with
  | none => .next s
  | some q =>
    match q.reader.phase with
    | .idle =>
      if q.reader.enabled then s.locked h (.reader h) (fun q => (issueReadout q, .quiet)) else .next s
    | .reading => .next (s.putSeq h (returnReadout answer q))
    | .folding => s.locked h (.reader h) (fun q => (foldBatch q, .quiet))

end Sys2Proof.Machine
end

