-- ==== Sys2Proof/Machine/Fetch.lean ====
section
/-! DEFINITION. How the turn of an agent becomes a step (R5, R6, R57): which instruction a caller's turn runs, or what a
turn without an instruction does. -/

namespace Sys2Proof.Machine

/-- A turn either runs an instruction in a state, or is settled without one. -/
inductive Fetched
  | run (i : Instr) (s : State)
  | settled (o : Result)
deriving Repr

/-- The state a caller's turn runs under. -/
def State.underTurn (s : State) (k : Nat) (expire : Bool) : State := { s with issuer := k, expire := expire }

/-- What caller `k` has still to issue. -/
def State.setProgram (s : State) (k : Nat) (items : List Item) : State :=
  s.putCaller k { s.caller k with program := items }

/-- A caller's turn: check its pending command (R163), else issue its next item, a word through the decoder (R100), a
command as it is (R82), else nothing. A command item that holds a word instruction, which R82 does not list, runs against
the port the last word item left, of whatever caller (DESIGN CHOICE, log 25). -/
def State.callerTurn (s : State) (k : Nat) (expire : Bool) : Fetched :=
  match (s.caller k).pending with
  | some p => .settled ((s.underTurn k expire).recheck p)
  | none =>
    match (s.caller k).program with
    | [] => .settled (.next (s.underTurn k expire))
    | .word port w :: rest => .run (decode w) { (s.underTurn k expire).setProgram k rest with port := port }
    | .command i :: rest => .run i ((s.underTurn k expire).setProgram k rest)

/-- What one turn does. -/
def State.fetch (s : State) : Turn → Fetched
  | .caller k expire => s.callerTurn k expire
  | .reader h answer => .settled (s.readerTurn h answer)

/-- Place a word as the next thing to run: caller 0, waiting for nothing, issues it against its own counter 0 on the
next turn. -/
def State.placeWord (s : State) (w : RawWord) : State :=
  let c := s.caller 0
  { s.putCaller 0 { c with pending := none, program := .word (.counter 0) w :: c.program } with
    schedule := .caller 0 false :: s.schedule }

end Sys2Proof.Machine
end

