-- ==== Sys2Proof/Machine/Dispatch.lean ====
section
/-! DEFINITION. One arm per constructor of Instr, each a direct call of its meaning. -/

namespace Sys2Proof.Machine

def exec (i : Instr) (s : State) : Host.Outcome State Fault Refusal :=
  match i with
  | .ovf => Sys2Proof.Machine.execOvf s
  | .tp ts => Sys2Proof.Machine.execTp ts s
  | .cw message payload => Sys2Proof.Machine.execCw message payload s
  | .chipData0 f => Sys2Proof.Machine.execChipData0 f s
  | .chipData1 f => Sys2Proof.Machine.execChipData1 f s
  | .chipData2 f => Sys2Proof.Machine.execChipData2 f s
  | .chipData3 f => Sys2Proof.Machine.execChipData3 f s
  | .chipData4 f => Sys2Proof.Machine.execChipData4 f s
  | .chipData5 f => Sys2Proof.Machine.execChipData5 f s
  | .chipData6 f => Sys2Proof.Machine.execChipData6 f s
  | .chipData7 f => Sys2Proof.Machine.execChipData7 f s
  | .chipData8 f => Sys2Proof.Machine.execChipData8 f s
  | .chipData9 f => Sys2Proof.Machine.execChipData9 f s
  | .chipDataB f => Sys2Proof.Machine.execChipDataB f s
  | .chipDataD f => Sys2Proof.Machine.execChipDataD f s
  | .chipDataE f => Sys2Proof.Machine.execChipDataE f s
  | .decode w c => Sys2Proof.Machine.execDecode w c s
  | .cwEq a b => Sys2Proof.Machine.execCwEq a b s
  | .secFromCol col => Sys2Proof.Machine.execSecFromCol col s
  | .dcolFromCol col => Sys2Proof.Machine.execDcolFromCol col s
  | .coreprFromRow row => Sys2Proof.Machine.execCoreprFromRow row s
  | .masterFromRow row => Sys2Proof.Machine.execMasterFromRow row s
  | .idxFromPos row col => Sys2Proof.Machine.execIdxFromPos row col s
  | .masterIdx p => Sys2Proof.Machine.execMasterIdx p s
  | .pixelsOf p => Sys2Proof.Machine.execPixelsOf p s
  | .extendTs ts tsFpga tsSw => Sys2Proof.Machine.execExtendTs ts tsFpga tsSw s
  | .isComplete sub => Sys2Proof.Machine.execIsComplete sub s
  | .receive h p => Sys2Proof.Machine.execReceive h p s
  | .receiveWord h w => Sys2Proof.Machine.execReceiveWord h w s
  | .pop h index timeout => Sys2Proof.Machine.execPop h index timeout s
  | .read h index timeout => Sys2Proof.Machine.execRead h index timeout s
  | .extend h other => Sys2Proof.Machine.execExtend h other s
  | .startReader h => Sys2Proof.Machine.execStartReader h s
  | .stopReader h => Sys2Proof.Machine.execStopReader h s
  | .checkMarker sub expected => Sys2Proof.Machine.execCheckMarker sub expected s
  | .newSequence timeout => Sys2Proof.Machine.execNewSequence timeout s
  | .squash packets strict => Sys2Proof.Machine.execSquash packets strict s
  | .classify tps hits tsDelta tol => Sys2Proof.Machine.execClassify tps hits tsDelta tol s

end Sys2Proof.Machine
end

