-- ==== Sys2Proof/Machine/Step.lean ====
section
/-! DEFINITION. One step: the next scheduled turn, taken (R5, R57). -/

namespace Sys2Proof.Machine

/-- Take one turn. -/
def takeTurn (t : Turn) (s : State) : Host.Outcome State Fault Refusal :=
  match s.fetch t with
  | .run i s' => exec i s'
  | .settled o => o

/-- The step: with no turn scheduled no agent moves and nothing changes (log 1). -/
def step (s : State) : Host.Outcome State Fault Refusal :=
  match s.schedule with
  | [] => .next s
  | t :: rest => takeTurn t { s with schedule := rest }

/-- `s` with the word of a table row, upper bits zero, placed where `step` takes its next instruction from. Log 3. -/
def State.withFetchWord (s : State) (nbits w : Nat) : State :=
  s.placeWord (BitVec.ofNat 64 (w % 2 ^ nbits))

end Sys2Proof.Machine
end

