-- ==== Sys2Proof/Safety.lean ====
section
/-! DEFINITION. The terms statements use: a Sequence a command may run on, the invariant of the machine, the packets of
a word stream, executions and the fairness of R174. -/

namespace Sys2Proof.Machine

/-- `h` names the Sequence `q`, no `EXTEND` has consumed it (R247 (f)) and no agent holds its lock (R58). -/
structure State.HasLive (s : State) (h : Nat) (q : Sequence) : Prop where
  named : s.seqs[h]? = some q
  free : q.lock = none
  unconsumed : q.consumed = false

/-- The handles a command names, and the handle a word's port names (R29, R162). -/
def handlesOf (port : Port) : Instr → List Nat
  | .ovf => portHandles port
  | .tp _ => portHandles port
  | .cw _ _ => portHandles port
  | .chipData0 _ => portHandles port
  | .chipData1 _ => portHandles port
  | .chipData2 _ => portHandles port
  | .chipData3 _ => portHandles port
  | .chipData4 _ => portHandles port
  | .chipData5 _ => portHandles port
  | .chipData6 _ => portHandles port
  | .chipData7 _ => portHandles port
  | .chipData8 _ => portHandles port
  | .chipData9 _ => portHandles port
  | .chipDataB _ => portHandles port
  | .chipDataD _ => portHandles port
  | .chipDataE _ => portHandles port
  | .decode _ _ => []
  | .cwEq _ _ => []
  | .secFromCol _ => []
  | .dcolFromCol _ => []
  | .coreprFromRow _ => []
  | .masterFromRow _ => []
  | .idxFromPos _ _ => []
  | .masterIdx _ => []
  | .pixelsOf _ => []
  | .extendTs _ _ _ => []
  | .isComplete _ => []
  | .receive h _ => [h]
  | .receiveWord h _ => [h]
  | .pop h _ _ => [h]
  | .read h _ _ => [h]
  | .extend h other => [h, other]
  | .startReader h => [h]
  | .stopReader h => [h]
  | .checkMarker _ _ => []
  | .newSequence _ => []
  | .squash _ _ => []
  | .classify _ _ _ _ => []
where
  /-- The handle behind a port. -/
  portHandles : Port → List Nat
    | .counter _ => []
    | .sequence h => [h]

/-- What the CORE's rules keep of every Sequence. -/
structure Sequence.Inv (q : Sequence) : Prop where
  /-- R32 (a): every SubSequence except possibly the last is complete. -/
  framed : ∀ sub ∈ q.queue.dropLast, isComplete sub = true
  /-- R32 (b): no SubSequence is empty. -/
  inhabited : ∀ sub ∈ q.queue, sub ≠ []
  /-- R27: a SubSequence is closed by its first CustomWord and never appended to again. -/
  closedOnce : ∀ sub ∈ q.queue, ∀ p ∈ sub.dropLast, isMarker p = false
  /-- R14: every packet field is within its declared range. -/
  ranged : ∀ sub ∈ q.queue, ∀ p ∈ sub, p.inRange = true
  /-- R56, R58: no lock is held between steps. -/
  unlocked : q.lock = none
  /-- R30: `batch` is empty except in the Folding phase. -/
  batched : q.reader.phase ≠ .folding → q.reader.batch = []
  /-- R35: the timeout is positive. -/
  bounded : q.timeout.isPositive = true

/-- The invariant of the machine: every Sequence keeps its own, and every command in progress waits on a Sequence that
exists, with a reader active at its issue (R31, R163). -/
structure State.Inv (s : State) : Prop where
  sequences : ∀ q ∈ s.seqs, q.Inv
  waiting : ∀ k p, (s.caller k).pending = some p → p.seq < s.seqs.length ∧ p.readerActive = true

/-- The packets of a word stream decoded against a counter that starts at `c` (R143). -/
def decodeStream : U32 → List RawWord → List Packet
  | _, [] => []
  | c, w :: ws => (decodeWord w c).1.toList ++ decodeStream (decodeWord w c).2 ws

/-- The counter after a word stream: one up for each TimestampOverflow word, modulo 2^32 (R101). -/
def counterAfter : U32 → List RawWord → U32
  | c, [] => c
  | c, w :: ws => counterAfter (decodeWord w c).2 ws

/-- Folding batches into a Sequence one after another (R55, R171). -/
def foldBatches : Sequence → List (List RawWord) → Sequence
  | q, [] => q
  | q, b :: bs => foldBatches (foldBatch { q with reader := { q.reader with batch := b } }) bs

/-- An execution: agents take turns, every step has a next state (R57). -/
structure Execution where
  state : Nat → State
  turn : Nat → Turn
  steps : ∀ n, takeTurn (turn n) (state n) = .next (state (n + 1))

/-- The reader agent of `h` has a step (R171). -/
def State.readerHasStep (s : State) (h : Nat) : Prop :=
  ∃ q, s.seqs[h]? = some q ∧ (q.reader.phase ≠ .idle ∨ q.reader.enabled = true)

/-- The fairness assumptions of R174, on executions. -/
structure Execution.Fair (e : Execution) : Prop where
  /-- R174 (a): a pending command does not stay pending forever. -/
  waitsEnd : ∀ n k p, ((e.state n).caller k).pending = some p → ∃ m, n ≤ m ∧ ((e.state m).caller k).pending = none
  /-- R174 (b): a readout returns. -/
  readoutsReturn : ∀ n h q, (e.state n).seqs[h]? = some q → q.reader.phase = .reading →
    ∃ m a, n ≤ m ∧ e.turn m = .reader h a
  /-- R174 (c): a reader agent that keeps having a step takes it. -/
  readersMove : ∀ n h, (∀ m, n ≤ m → (e.state m).readerHasStep h) → ∃ m a, n ≤ m ∧ e.turn m = .reader h a

end Sys2Proof.Machine
end

