-- ==== Sys2Proof/Certificates/Slice0/Obligations.lean ====
section
/-! DEFINITION. The statements for the provers, in the order of spec/. -/

open Sys2Proof Sys2Proof.Machine

/-! ## Encodings and the Word Decoder -/

/-- Words written out from R72-R75 (95_test_vectors.md W1, W2, V-D) decode to the instructions they stand for. -/
def Obligations.WordsOfEachClassDecode : Prop :=
  decode 0x0400000505120003#64 = .chipData0 ⟨4, 5, 5, 1, 2, 0, 1, true⟩
    ∧ decode 0x9123456789ABCDEF#64 = .chipData9 ⟨1, 0x234567, 0x89, 0xA, 0xB, 0x66, 0xF7, true⟩
    ∧ decode 0xEFFFFFFFFFFFFFFF#64 = .chipDataE ⟨15, 0xFFFFFF, 0xFF, 15, 15, 127, 0xFF, true⟩
    ∧ decode 0xA000000000123456#64 = .tp 0x123456
    ∧ decode 0xCF12345678ABCDEF#64 = .cw 0x12345678ABCD 0xEF
    ∧ decode 0xFFFFFFFFFFFFFFFF#64 = .ovf

/-- R71: every word belongs to exactly one row of the table, and the decoder gives that row's instruction. -/
def Obligations.EveryWordHasOneTableRow : Prop :=
  ∀ w : RawWord, ∃ m : String,
    (opcodeTable.filter (fun r => r.fits w)).map (fun r => r.mnemonic) = [m]
      ∧ (decode w).wordMnemonic = some m

/-- Decode and encode agree: every instruction that has a word is what its word decodes to. -/
def Obligations.DecodeInvertsEncode : Prop :=
  ∀ (i : Instr) (w : RawWord), encode i = some w → decode w = i

/-- R78: the word of a decoded word is the word with its class's don't-care bits cleared, so two words decode to the
same instruction exactly when they differ in don't-care bits only, and then give the same result. -/
def Obligations.DontCareBitsExactly : Prop :=
  (∀ w : RawWord, encode (decode w) = some (clearDontCare w))
    ∧ (∀ w v : RawWord, decode w = decode v ↔ clearDontCare w = clearDontCare v)
    ∧ (∀ (w v : RawWord) (c : U32), clearDontCare w = clearDontCare v → decodeWord w c = decodeWord v c)

/-- R79: the control value of a ChipData word is not recorded. -/
def Obligations.ChipControlNotRecorded : Prop :=
  ∀ (w v : RawWord) (c : U32),
    ctl w ∉ [0xA#4, 0xC#4, 0xF#4] → ctl v ∉ [0xA#4, 0xC#4, 0xF#4]
      → w.extractLsb' 0 60 = v.extractLsb' 0 60 → decodeWord w c = decodeWord v c

/-- R107: decoding the canonical encoding gives the packet's word fields back, with `ts_sw` the counter and `ts_ext` as
R102 and R104 give; and encoding a decoded packet gives the word with its don't-care bits, and for ChipData its control
field, cleared. -/
def Obligations.CanonicalRoundTrip : Prop :=
  (∀ (q : ChipData) (c : U32), q.inRange = true → ∃ w, encodePacket (.chipData q) = some w
      ∧ decodeWord w c = (some (.chipData { q with tsSw := c, tsExt := extendTs q.ts q.tsFpga c }), c))
    ∧ (∀ (q : TestPulse) (c : U32), q.inRange = true → ∃ w, encodePacket (.testPulse q) = some w
      ∧ decodeWord w c = (some (.testPulse { q with tsSw := c, tsExt := q.ts }), c))
    ∧ (∀ (m : CustomWord) (x : U8) (c : U32), m.inRange = true → m.payload = some x →
      ∃ w, encodePacket (.customWord m) = some w ∧ decodeWord w c = (some (.customWord m), c))
    ∧ (∀ c : U32, decodeWord ovfWord c = (none, c + 1))
    ∧ (∀ (w : RawWord) (c : U32) (p : Packet), (decodeWord w c).1 = some p →
      encodePacket p = some (match p with
        | .chipData _ => w &&& 0x0FFFFFFFFFFFFFFF#64
        | .testPulse _ => w &&& 0xF000000000FFFFFF#64
        | .customWord _ => w &&& 0xF0FFFFFFFFFFFFFF#64))

/-- R81: the canonical encoder's formulas, and where it refuses. -/
def Obligations.CanonicalEncoderFormulas : Prop :=
  (∀ q : ChipData, q.inRange = true → encodePacket (.chipData q) = some
      ((q.ser.setWidth 64 <<< 56) ||| (q.tsFpga.setWidth 64 <<< 32) ||| (q.ts.setWidth 64 <<< 24)
        ||| (q.sec.setWidth 64 <<< 20) ||| (q.col.setWidth 64 <<< 16) ||| (q.corepr.setWidth 64 <<< 9)
        ||| (q.hitmap.setWidth 64 <<< 1) ||| (if q.bottom then 1#64 else 0#64)))
    ∧ (∀ q : TestPulse, q.inRange = true →
      encodePacket (.testPulse q) = some ((0xA#64 <<< 60) ||| q.ts.setWidth 64))
    ∧ (∀ (m : CustomWord) (x : U8), m.inRange = true → m.payload = some x →
      encodePacket (.customWord m) = some ((0xC#64 <<< 60) ||| (m.message <<< 8) ||| x.setWidth 64))
    ∧ ovfWord = 0xF#64 <<< 60
    ∧ (∀ m : CustomWord, m.payload = none → encodePacket (.customWord m) = none)
    ∧ (∀ p : Packet, p.inRange = false → encodePacket p = none)

/-- R100-R104: the whole decoder in the source's byte expressions (R50). -/
def Obligations.DecodeFollowsByteExpressions : Prop :=
  ∀ (w : RawWord) (c : U32),
    let b : Nat → RawWord := fun i => (w >>> (8 * i)) &&& 0xFF#64
    decodeWord w c =
      if w >>> 60 = 0xF#64 then (none, c + 1)
      else if w >>> 60 = 0xA#64 then
        (some (.testPulse
          ⟨((b 2 <<< 16) ||| (b 1 <<< 8) ||| b 0).setWidth 32, c,
            ((b 2 <<< 16) ||| (b 1 <<< 8) ||| b 0).setWidth 32⟩), c)
      else if w >>> 60 = 0xC#64 then
        (some (.customWord
          ⟨(b 6 <<< 40) ||| (b 5 <<< 32) ||| (b 4 <<< 24) ||| (b 3 <<< 16) ||| (b 2 <<< 8) ||| b 1,
            some ((b 0).setWidth 8)⟩), c)
      else
        (some (.chipData
          { bottom := decide (b 0 &&& 1#64 = 1#64)
            hitmap := (((b 1 &&& 1#64) <<< 7) ||| ((b 0 >>> 1) &&& 0x7F#64)).setWidth 8
            corepr := ((b 1 >>> 1) &&& 0x7F#64).setWidth 8
            col := (b 2 &&& 0xF#64).setWidth 8
            sec := ((b 2 >>> 4) &&& 0xF#64).setWidth 8
            ts := (b 3).setWidth 8
            tsFpga := ((b 6 <<< 16) ||| (b 5 <<< 8) ||| b 4).setWidth 32
            ser := (b 7 &&& 0xF#64).setWidth 8
            tsSw := c
            tsExt := extendTs ((b 3).setWidth 8) (((b 6 <<< 16) ||| (b 5 <<< 8) ||| b 4).setWidth 32) c }), c)

/-- R101: an OVF word adds one to its counter and gives no packet: a caller's counter, every other counter kept, or the
`ts_sw` of a Sequence (R162), nothing appended. -/
def Obligations.OvfWordIncrementsCounter : Prop :=
  (∀ (s : State) (c : Nat), s.port = .counter c → ∃ t, exec .ovf s = .next t
      ∧ t.counter c = s.counter c + 1
      ∧ (∀ c', c' ≠ c → t.counter c' = s.counter c')
      ∧ (t.caller s.issuer).replies = .packet none :: (s.caller s.issuer).replies
      ∧ t.seqs = s.seqs)
    ∧ (∀ (s : State) (h : Nat) (q : Sequence), s.port = .sequence h → s.HasLive h q →
      exec .ovf s = .next ((s.putSeq h { q with tsSw := q.tsSw + 1 }).reply .done))

/-- R102: a TP word gives a TestPulse with `ts_sw` the counter and `ts_ext = ts`; no counter is written. -/
def Obligations.TpWordGivesTestPulse : Prop :=
  (∀ (ts : BitVec 24) (s : State) (c : Nat), s.port = .counter c → exec (.tp ts) s =
      .next (s.reply (.packet (some (.testPulse ⟨ts.setWidth 32, s.counter c, ts.setWidth 32⟩)))))
    ∧ (∀ (ts : BitVec 24) (s : State) (h : Nat) (q : Sequence), s.port = .sequence h → s.HasLive h q →
      exec (.tp ts) s = .next ((s.putSeq h
        (receivePacket q (.testPulse ⟨ts.setWidth 32, q.tsSw, ts.setWidth 32⟩))).reply .done))

/-- R103: a CW word gives a CustomWord with its payload present; no counter is read or written. -/
def Obligations.CwWordGivesCustomWord : Prop :=
  (∀ (m : BitVec 48) (x : U8) (s : State) (c : Nat), s.port = .counter c → exec (.cw m x) s =
      .next (s.reply (.packet (some (.customWord ⟨m.setWidth 64, some x⟩)))))
    ∧ (∀ (m : BitVec 48) (x : U8) (s : State) (h : Nat) (q : Sequence), s.port = .sequence h → s.HasLive h q →
      exec (.cw m x) s =
        .next ((s.putSeq h (receivePacket q (.customWord ⟨m.setWidth 64, some x⟩))).reply .done))

/-- R104: each of the thirteen ChipData rows gives the same ChipData, its word fields zero-extended, `ts_sw` the
counter, `ts_ext` by R140; no counter is written. -/
def Obligations.ChipWordsGiveChipData : Prop :=
  ∀ mk ∈ [Instr.chipData0, Instr.chipData1, Instr.chipData2, Instr.chipData3, Instr.chipData4, Instr.chipData5,
      Instr.chipData6, Instr.chipData7, Instr.chipData8, Instr.chipData9, Instr.chipDataB, Instr.chipDataD,
      Instr.chipDataE],
    ∀ (f : ChipFields) (s : State),
      let packet : U32 → Packet := fun n => .chipData
        { bottom := f.bottom, hitmap := f.hitmap, corepr := f.corepr.setWidth 8, col := f.col.setWidth 8
          sec := f.sec.setWidth 8, ts := f.ts, tsFpga := f.tsFpga.setWidth 32, ser := f.ser.setWidth 8
          tsSw := n, tsExt := extendTs f.ts (f.tsFpga.setWidth 32) n }
      (∀ c, s.port = .counter c → exec (mk f) s = .next (s.reply (.packet (some (packet (s.counter c))))))
        ∧ (∀ h q, s.port = .sequence h → s.HasLive h q →
          exec (mk f) s = .next ((s.putSeq h (receivePacket q (packet q.tsSw))).reply .done))

/-- R106: `DECODE` always completes; its only effect is one more on the counter for an OVF word, and it yields no packet
exactly for an OVF word. -/
def Obligations.DecodeCommandCompletes : Prop :=
  ∀ (w : RawWord) (c : Nat) (s : State),
    exec (.decode w c) s =
        .next ((s.putCounter c (if w >>> 60 = 0xF#64 then s.counter c + 1 else s.counter c)).reply
          (.packet (decodeWord w (s.counter c)).1))
      ∧ ((decodeWord w (s.counter c)).1 = none ↔ w >>> 60 = 0xF#64)

/-- `DECODE w, c` does what the word's own instruction does on the handle `c`, and `RECEIVE_WORD S, w` what it does on
the handle `S.ts_sw` (R100, R162). -/
def Obligations.WordCommandsRunTheirWord : Prop :=
  (∀ (w : RawWord) (c : Nat) (s : State), s.port = .counter c → exec (.decode w c) s = exec (decode w) s)
    ∧ (∀ (w : RawWord) (h : Nat) (s : State), s.port = .sequence h → exec (.receiveWord h w) s = exec (decode w) s)

/-- R105: the result of `CW_EQ`. -/
def Obligations.CwEqResult : Prop :=
  ∀ (a b : CustomWord) (s : State), a.inRange = true → b.inRange = true →
    (a.message ≠ b.message → exec (.cwEq a b) s = .next (s.reply (.bool false)))
      ∧ (a.message = b.message → (a.payload = none ∨ b.payload = none) →
        exec (.cwEq a b) s = .next (s.reply (.bool true)))
      ∧ (∀ x y, a.message = b.message → a.payload = some x → b.payload = some y →
        exec (.cwEq a b) s = .next (s.reply (.bool (decide (x = y)))))

/-- R105, I9: marker equality is reflexive and symmetric and not transitive. -/
def Obligations.MarkerEqualityNotTransitive : Prop :=
  (∀ a, markerEq a a = true) ∧ (∀ a b, markerEq a b = markerEq b a)
    ∧ ∀ (m : U64) (x y : U8), x ≠ y → ∃ a b c : CustomWord, a = ⟨m, some x⟩ ∧ c = ⟨m, some y⟩
      ∧ markerEq a b = true ∧ markerEq b c = true ∧ markerEq a c = false

/-! ## The Address Model -/

/-- R120-R124: the coordinate functions on 0..511, their ranges, and their refusal outside. -/
def Obligations.CoordinateFunctionResults : Prop :=
  ∀ (row col : U16) (s : State),
    (col.toNat ≤ 511 → exec (.secFromCol col) s = .next (s.reply (.number (col.toNat >>> 5))) ∧ col.toNat >>> 5 ≤ 15)
      ∧ (col.toNat ≤ 511 → exec (.dcolFromCol col) s = .next (s.reply (.number ((col.toNat >>> 1) &&& 0xF)))
        ∧ (col.toNat >>> 1) &&& 0xF ≤ 15)
      ∧ (row.toNat ≤ 511 → exec (.coreprFromRow row) s = .next (s.reply (.number (row.toNat >>> 2)))
        ∧ row.toNat >>> 2 ≤ 127)
      ∧ (row.toNat ≤ 511 → exec (.masterFromRow row) s = .next (s.reply (.number ((row.toNat >>> 1) &&& 1)))
        ∧ (row.toNat >>> 1) &&& 1 ≤ 1)
      ∧ (row.toNat ≤ 511 → col.toNat ≤ 511 →
        exec (.idxFromPos row col) s = .next (s.reply (.number ((row.toNat &&& 1) * 2 + (col.toNat &&& 1))))
        ∧ (row.toNat &&& 1) * 2 + (col.toNat &&& 1) ≤ 3)
      ∧ (511 < col.toNat → exec (.secFromCol col) s = .refused .coordinateOutOfRange
        ∧ exec (.dcolFromCol col) s = .refused .coordinateOutOfRange)
      ∧ (511 < row.toNat → exec (.coreprFromRow row) s = .refused .coordinateOutOfRange
        ∧ exec (.masterFromRow row) s = .refused .coordinateOutOfRange)
      ∧ (511 < row.toNat ∨ 511 < col.toNat → exec (.idxFromPos row col) s = .refused .coordinateOutOfRange)

/-- R125: `MASTER_IDX`, its range, that each value has one `(sec, col, corepr)` triple, and that for a decoded packet it
is bits 23:9 of the word. -/
def Obligations.MasterIdxResult : Prop :=
  (∀ (p : ChipData) (s : State), p.inRange = true →
      exec (.masterIdx p) s =
          .next (s.reply (.number ((p.sec.toNat * 16 + p.col.toNat) * 128 + p.corepr.toNat)))
        ∧ masterIdx p ≤ 32767)
    ∧ (∀ p p' : ChipData, p.inRange = true → p'.inRange = true → masterIdx p = masterIdx p' →
      p.sec = p'.sec ∧ p.col = p'.col ∧ p.corepr = p'.corepr)
    ∧ (∀ (w : RawWord) (c c' : U32) (p : ChipData), decodeWord w c = (some (.chipData p), c') →
      masterIdx p = (w.extractLsb' 9 15).toNat)

/-- R126, R127: `PIXELS_OF` gives the pixels of the set hitmap bits, ascending, by the source's formula; it raises
`PixelOutOfRange` with the packet exactly where `corepr = 127`, `bottom = 0` and a hitmap bit of 0..3 is set. -/
def Obligations.PixelsOfResult : Prop :=
  ∀ (p : ChipData) (s : State), p.inRange = true →
    exec (.pixelsOf p) s =
      if p.corepr.toNat = 127 ∧ p.bottom = false ∧ p.hitmap.toNat % 16 ≠ 0 then
        .next (s.reply (.error (.pixelOutOfRange p)))
      else
        .next (s.reply (.pixels (([0, 1, 2, 3, 4, 5, 6, 7].filter (fun pix => p.hitmap.toNat.testBit pix)).map
          (fun pix =>
            ⟨BitVec.ofNat 16 ((if pix > 3 then 2 else 0)
                + (if pix > 3 then p.corepr.toNat else p.corepr.toNat + 1 - (if p.bottom then 1 else 0)) * 4
                + (if pix % 4 > 1 then 1 else 0)),
              BitVec.ofNat 16 (p.sec.toNat * 32 + p.col.toNat * 2 + pix % 2)⟩))))

/-- R128: the coordinate functions invert `PIXELS_OF`. -/
def Obligations.CoordinatesInvertPixels : Prop :=
  ∀ (p : ChipData) (ps : List Pixel), p.inRange = true → pixelsOf p = some ps →
    ps.length = (setBits p).length
      ∧ ∀ (j pix : Nat), (setBits p)[j]? = some pix → ∃ px, ps[j]? = some px
        ∧ px.row.toNat ≤ 511 ∧ px.col.toNat ≤ 511
        ∧ secFromCol px.col = p.sec.toNat ∧ dcolFromCol px.col = p.col.toNat
        ∧ coreprFromRow px.row = (if pix > 3 then p.corepr.toNat else p.corepr.toNat + 1 - (if p.bottom then 1 else 0))
        ∧ masterFromRow px.row = (if pix > 3 then 1 else 0)
        ∧ idxFromPos px.row px.col = pix % 4
        ∧ pix = masterFromRow px.row * 4 + idxFromPos px.row px.col

/-! ## The Timestamp Extension -/

/-- R140: the result of `EXTEND_TS` in natural numbers modulo 2^32, and its refusal. -/
def Obligations.ExtendTsResult : Prop :=
  ∀ (ts : U8) (fpga sw : U32) (s : State),
    (fpga.toNat < 2 ^ 24 →
      exec (.extendTs ts fpga sw) s = .next (s.reply (.timestamp (BitVec.ofNat 32
        ((sw.toNat * 2 ^ 24) % 2 ^ 32
          ||| (if fpga.toNat % 256 < ts.toNat then (fpga.toNat / 256 * 256 + (2 ^ 32 - 256)) % 2 ^ 32
            else fpga.toNat / 256 * 256)
          ||| ts.toNat)))))
      ∧ (2 ^ 24 ≤ fpga.toNat → exec (.extendTs ts fpga sw) s = .refused .tsFpgaOutOfRange)

/-- R140 corner cases (b), (c), (d), R278: the low byte is `ts`; a borrow from `msb = 0` hides `ts_sw`; `ts_sw` and
`ts_sw + 256` give the same result. -/
def Obligations.ExtendTsCorners : Prop :=
  (∀ (ts : U8) (fpga sw : U32), (extendTs ts fpga sw).setWidth 8 = ts)
    ∧ (∀ (ts : U8) (fpga sw : U32), fpga.toNat < 256 → fpga.toNat < ts.toNat →
      extendTs ts fpga sw = 0xFFFFFF00#32 ||| ts.setWidth 32)
    ∧ (∀ (ts : U8) (fpga sw : U32), extendTs ts fpga (sw + 256#32) = extendTs ts fpga sw)

/-- Rebasing by the pseudocode of R142: it shifts `ts_sw` modulo 2^32 and recomputes `ts_ext`; a CustomWord is unchanged;
base 0 leaves a decoded packet unchanged. R142's corner cases say that base 0 leaves every packet unchanged and
that a TestPulse keeps its `ts_ext`: that a caller-built packet whose `ts_ext` is not that of its fields gets the recomputed
one, a ChipData also at base 0 and a TestPulse at every base, is the model's choice, log 21. -/
def Obligations.RebaseRecomputes : Prop :=
  (∀ (p : ChipData) (b : U32), rebase b (.chipData p) = .chipData
      { p with tsSw := p.tsSw + b, tsExt := extendTs p.ts p.tsFpga (p.tsSw + b) })
    ∧ (∀ (p : TestPulse) (b : U32), rebase b (.testPulse p) =
      .testPulse { p with tsSw := p.tsSw + b, tsExt := p.ts })
    ∧ (∀ (m : CustomWord) (b : U32), rebase b (.customWord m) = .customWord m)
    ∧ (∀ (w : RawWord) (c : U32) (p : Packet), (decodeWord w c).1 = some p → rebase 0 p = p)

/-- R145: decoding a word list from 0 and rebasing every packet by `b` is decoding it from `b`. -/
def Obligations.RebaseEqualsShiftedDecode : Prop :=
  ∀ (ws : List RawWord) (b : U32), (decodeStream 0 ws).map (rebase b) = decodeStream b ws

/-! ## The Sequence Assembler -/

/-- R160: the result of `IS_COMPLETE`. That it also answers for a SubSequence that holds a CustomWord without payload is
the model's choice, log 23. -/
def Obligations.IsCompleteResult : Prop :=
  ∀ (sub : SubSequence) (s : State), sub.all Packet.inRange = true →
    ((∃ init m, sub = init ++ [Packet.customWord m]) → exec (.isComplete sub) s = .next (s.reply (.bool true)))
      ∧ ((¬ ∃ init m, sub = init ++ [Packet.customWord m]) →
        exec (.isComplete sub) s = .next (s.reply (.bool false)))

/-- R161: `RECEIVE` opens a new SubSequence when the queue is empty or its last one is complete, and appends. That it also
receives a caller-built CustomWord without payload, which R23 has only in a marker to compare against, is the model's
choice, log 23. -/
def Obligations.ReceiveResult : Prop :=
  ∀ (s : State) (h : Nat) (q : Sequence) (p : Packet), s.HasLive h q → p.inRange = true →
    (q.queue = [] → exec (.receive h p) s = .next ((s.putSeq h { q with queue := [[p]] }).reply .done))
      ∧ (∀ pre init m, q.queue = pre ++ [init ++ [Packet.customWord m]] →
        exec (.receive h p) s = .next ((s.putSeq h { q with queue := q.queue ++ [[p]] }).reply .done))
      ∧ (∀ pre sub, q.queue = pre ++ [sub] → (¬ ∃ init m, sub = init ++ [Packet.customWord m]) →
        exec (.receive h p) s = .next ((s.putSeq h { q with queue := pre ++ [sub ++ [p]] }).reply .done))

/-- R162: `RECEIVE_WORD` of an OVF word only adds one to `S.ts_sw`; of any other word it is the `RECEIVE` of the packet
decoded against `S.ts_sw`. -/
def Obligations.ReceiveWordResult : Prop :=
  ∀ (s : State) (h : Nat) (q : Sequence) (w : RawWord), s.HasLive h q →
    (w >>> 60 = 0xF#64 →
      exec (.receiveWord h w) s = .next ((s.putSeq h { q with tsSw := q.tsSw + 1 }).reply .done))
      ∧ (w >>> 60 ≠ 0xF#64 → ∃ p, decodeWord w q.tsSw = (some p, q.tsSw) ∧ p.inRange = true
        ∧ exec (.receiveWord h w) s = exec (.receive h p) s
        ∧ exec (.receiveWord h w) s = .next ((s.putSeq h (receivePacket q p)).reply .done))

/-- R165: `POP` with no reader active removes the SubSequence at the index, complete or not, or fails at once. -/
def Obligations.PopWithoutReader : Prop :=
  ∀ (s : State) (h n : Nat) (q : Sequence) (timeout : Option Seconds), s.HasLive h q → q.reader.enabled = false →
    (∀ sub, q.queue[n]? = some sub → exec (.pop h n timeout) s =
        .next ((s.putSeq h { q with queue := q.queue.eraseIdx n }).reply (.sub sub)))
      ∧ (q.queue.length ≤ n → exec (.pop h n timeout) s =
        .next (s.reply (.error (.popIndexOutOfRange n q.queue.length))))

/-- R163, R164, R167: `POP` with a reader active completes at issue if the SubSequence at the index is complete; else it
times out if this turn takes the timeout, else it becomes pending with the operand or `S.timeout` as its bound. A
negative index is refused. That the choice R164 leaves open is the bit `expire` of the turn is the model's choice, log 15. -/
def Obligations.PopWithReader : Prop :=
  (∀ (s : State) (h n : Nat) (q : Sequence) (timeout : Option Seconds), s.HasLive h q → q.reader.enabled = true →
      (∀ init m, q.queue[n]? = some (init ++ [Packet.customWord m]) → exec (.pop h n timeout) s =
          .next ((s.putSeq h { q with queue := q.queue.eraseIdx n }).reply (.sub (init ++ [Packet.customWord m]))))
        ∧ ((¬ ∃ init m, q.queue[n]? = some (init ++ [Packet.customWord m])) → s.expire = true →
          exec (.pop h n timeout) s = .next (s.reply (.error (.popTimedOut n))))
        ∧ ((¬ ∃ init m, q.queue[n]? = some (init ++ [Packet.customWord m])) → s.expire = false →
          exec (.pop h n timeout) s = .next (s.setPending (some ⟨h, .pop, n, true, timeout.getD q.timeout⟩))))
    ∧ (∀ (s : State) (h : Nat) (n : Int) (timeout : Option Seconds), n < 0 →
      exec (.pop h n timeout) s = .refused .negativeIndex)

/-- R166: `READ` has the contract of `POP` and leaves the Sequence as it is. The bit `expire` that takes the timeout is the
model's choice, log 15. -/
def Obligations.ReadKeepsQueue : Prop :=
  ∀ (s : State) (h n : Nat) (q : Sequence) (timeout : Option Seconds), s.HasLive h q →
    (∀ sub, q.reader.enabled = false → q.queue[n]? = some sub →
        exec (.read h n timeout) s = .next (s.reply (.sub sub)))
      ∧ (q.reader.enabled = false → q.queue.length ≤ n →
        exec (.read h n timeout) s = .next (s.reply (.error (.popIndexOutOfRange n q.queue.length))))
      ∧ (∀ init m, q.reader.enabled = true → q.queue[n]? = some (init ++ [Packet.customWord m]) →
        exec (.read h n timeout) s = .next (s.reply (.sub (init ++ [Packet.customWord m]))))
      ∧ (q.reader.enabled = true → (¬ ∃ init m, q.queue[n]? = some (init ++ [Packet.customWord m])) →
        exec (.read h n timeout) s =
          if s.expire then .next (s.reply (.error (.popTimedOut n)))
          else .next (s.setPending (some ⟨h, .read, n, true, timeout.getD q.timeout⟩)))
      ∧ (∀ (x : Int), x < 0 → exec (.read h x timeout) s = .refused .negativeIndex)

/-- R163, R164: a later check of a pending `POP` or `READ` completes it if the SubSequence at its index is complete at
that step; else it ends with `PopTimedOut` if the turn takes the timeout; else nothing but the turn's own record
changes. Whether the reader is still enabled is not asked again. The bit `expire` that takes the timeout is the model's
choice, log 15; that a command pending on a Sequence consumed meanwhile goes on being checked, and completes or times out,
is the model's choice, log 9. -/
def Obligations.PendingCheck : Prop :=
  ∀ (s : State) (k : Nat) (expire : Bool) (p : Pending) (q : Sequence),
    (s.caller k).pending = some p → p.readerActive = true → s.seqs[p.seq]? = some q → q.lock = none →
    (∀ init m, q.queue[p.index]? = some (init ++ [Packet.customWord m]) → takeTurn (.caller k expire) s =
        .next ((((s.underTurn k expire).setPending none).putSeq p.seq
          (match p.kind with
            | .pop => { q with queue := q.queue.eraseIdx p.index }
            | .read => q)).reply (.sub (init ++ [Packet.customWord m]))))
      ∧ ((¬ ∃ init m, q.queue[p.index]? = some (init ++ [Packet.customWord m])) →
        takeTurn (.caller k true) s =
          .next (((s.underTurn k true).setPending none).reply (.error (.popTimedOut p.index))))
      ∧ ((¬ ∃ init m, q.queue[p.index]? = some (init ++ [Packet.customWord m])) →
        takeTurn (.caller k false) s = .next (s.underTurn k false))

/-- R168: `EXTEND S, other` rebases every packet of `other` by the old `S.ts_sw`, merges its first SubSequence into an
open last one, appends the rest, adds the counters, and consumes `other`. What the consumed `other` holds afterwards (its
queue with the packets unrebased, its counter, its reader) is the model's choice, logs 9 and 10; so is `rebase` of
a caller-built packet whose `ts_ext` is not that of its fields, a ChipData at base 0 and a TestPulse at any base, log 21. -/
def Obligations.ExtendResult : Prop :=
  ∀ (s : State) (h other : Nat) (q o : Sequence), h ≠ other → s.HasLive h q → s.seqs[other]? = some o →
    o.consumed = false →
    let absorbed := o.queue.map (List.map (rebase q.tsSw))
    let outcome : List SubSequence → Result := fun queue =>
      .next (((s.putSeq other { o with consumed := true }).putSeq h
        { q with queue := queue, tsSw := q.tsSw + o.tsSw }).reply .done)
    (absorbed = [] → exec (.extend h other) s = outcome q.queue)
      ∧ (∀ pre sub first rest, q.queue = pre ++ [sub] → (¬ ∃ init m, sub = init ++ [Packet.customWord m]) →
        absorbed = first :: rest → exec (.extend h other) s = outcome (pre ++ (sub ++ first) :: rest))
      ∧ ((q.queue = [] ∨ ∃ pre init m, q.queue = pre ++ [init ++ [Packet.customWord m]]) →
        exec (.extend h other) s = outcome (q.queue ++ absorbed))

/-- `EXTEND S, S` by the pseudocode of R168 on values: the model's choice, log 10. S keeps its packets, then holds them
rebased, and is consumed. `rebase` of a caller-built packet whose `ts_ext` is not
that of its fields follows log 21. -/
def Obligations.ExtendBySelf : Prop :=
  ∀ (s : State) (h : Nat) (q : Sequence), s.HasLive h q →
    exec (.extend h h) s = .next ((s.putSeq h
      { q with
        queue := concatQueues q.queue (q.queue.map (List.map (rebase q.tsSw)))
        tsSw := q.tsSw + q.tsSw
        consumed := true }).reply .done)

/-- R169, R170: `START_READER` and `STOP_READER` write the flag, whatever it was and whatever the agent's phase. -/
def Obligations.StartStopReader : Prop :=
  ∀ (s : State) (h : Nat) (q : Sequence), s.HasLive h q →
    exec (.startReader h) s = .next ((s.putSeq h { q with reader := { q.reader with enabled := true } }).reply .done)
      ∧ exec (.stopReader h) s =
        .next ((s.putSeq h { q with reader := { q.reader with enabled := false } }).reply .done)

/-- R173, R244, R259: `CHECK_MARKER` returns normally where the last packet is a CustomWord equal to the expected one by
`CW_EQ`; else it raises `ControlMarkerMismatch` with the expected marker, the last packet or none, and the last
`min(DIAG_DEPTH, len(sub))` packets in order. An expected marker without payload is R173's own; that `sub` may also hold a
CustomWord without payload is the model's choice, log 23. -/
def Obligations.CheckMarkerResult : Prop :=
  ∀ (sub : SubSequence) (expected : CustomWord) (s : State),
    sub.all Packet.inRange = true → expected.inRange = true →
    (∀ init m, sub = init ++ [Packet.customWord m] → markerEq m expected = true →
        exec (.checkMarker sub expected) s = .next (s.reply .done))
      ∧ ((¬ ∃ init m, sub = init ++ [Packet.customWord m] ∧ markerEq m expected = true) →
        ∃ snap, snap <:+ sub ∧ snap.length = min Config.diagDepth sub.length ∧ 0 < Config.diagDepth
          ∧ exec (.checkMarker sub expected) s =
            .next (s.reply (.error (.controlMarkerMismatch expected sub.getLast? snap))))

/-- R176, R270, R271: `NEW_SEQUENCE` creates a Sequence at its reset values, with the operand or the parameter TIMEOUT
(R10), one positive number whose value is open, as its timeout, and returns the next handle; a timeout that is not
positive is refused. -/
def Obligations.NewSequenceResult : Prop :=
  0 < Config.defaultTimeout.numerator ∧ ∀ s : State,
    let created : Seconds → Result := fun t =>
      .next (State.reply { s with seqs := s.seqs ++ [⟨[], 0, none, ⟨false, .idle, []⟩, t, false⟩] }
        (.sequence s.seqs.length))
    (∀ t : Seconds, 0 < t.numerator → exec (.newSequence (some t)) s = created t)
      ∧ exec (.newSequence none) s = created Config.defaultTimeout
      ∧ (∀ t : Seconds, t.numerator ≤ 0 → exec (.newSequence (some t)) s = .refused .timeoutNotPositive)

/-- R171, R246: the steps of the reader agent: ISSUE where idle and enabled, none where idle and disabled, RETURN takes
the words or an empty batch and needs no lock, FOLD feeds the batch to a fresh Sequence and extends S by it. That the
reader of a consumed Sequence goes on, FOLD included, is the model's choice, log 9: R247 (f) refuses a command that names
such a Sequence. The fresh Sequence's timeout is the model's choice, log 24; neither FEED nor EXTEND reads it. -/
def Obligations.ReaderAgentSteps : Prop :=
  ∀ (s : State) (h : Nat) (q : Sequence) (answer : Readout), s.seqs[h]? = some q →
    let fresh : Sequence := ⟨[], 0, none, ⟨false, .idle, []⟩, q.timeout, false⟩
    (q.reader.phase = .idle → q.reader.enabled = true → q.lock = none → takeTurn (.reader h answer) s =
        .next (s.putSeq h { q with reader := { q.reader with phase := .reading } }))
      ∧ (q.reader.phase = .idle → q.reader.enabled = false → takeTurn (.reader h answer) s = .next s)
      ∧ (∀ ws, q.reader.phase = .reading → answer = .words ws → takeTurn (.reader h answer) s =
        .next (s.putSeq h { q with reader := { q.reader with phase := .folding, batch := ws } }))
      ∧ (q.reader.phase = .reading → (∀ ws, answer ≠ .words ws) → takeTurn (.reader h answer) s =
        .next (s.putSeq h { q with reader := { q.reader with phase := .folding, batch := [] } }))
      ∧ (q.reader.phase = .folding → q.lock = none → takeTurn (.reader h answer) s =
        .next (s.putSeq h { extendSequence q (feed fresh q.reader.batch) with
          reader := ⟨q.reader.enabled, .idle, []⟩ }))

/-- R171: folding a batch, decoded against a zero-origin counter and rebased, gives what feeding its words to S gives:
decoding them in order against `S.ts_sw`. -/
def Obligations.FoldEqualsFeeding : Prop :=
  ∀ q : Sequence, foldBatch q =
    { feed q q.reader.batch with reader := { q.reader with phase := .idle, batch := [] } }

/-- R55: the packets of all folded batches stand in the queue in the order of their words, behind what was there. -/
def Obligations.ArrivalOrderPreserved : Prop :=
  ∀ (q : Sequence) (batches : List (List RawWord)),
    (foldBatches q batches).queue.flatten = q.queue.flatten ++ decodeStream q.tsSw batches.flatten
      ∧ (foldBatches q batches).tsSw = counterAfter q.tsSw batches.flatten

/-! ## Whole-machine rules -/

/-- R29: no command writes a Sequence it does not name; a word instruction is taken to name the Sequence of the port, also
where a command item holds it (log 25). Second clause: of the Sequence an `EXTEND` absorbs only the mark
that it is consumed changes; that it keeps its queue with the packets unrebased, its counter and its reader is the model's
choice, logs 9 and 10. -/
def Obligations.OtherSequencesUntouched : Prop :=
  (∀ (i : Instr) (s t : State) (h : Nat), exec i s = .next t → h < s.seqs.length → h ∉ handlesOf s.port i →
      t.seqs[h]? = s.seqs[h]?)
    ∧ (∀ (s t : State) (h other : Nat) (o : Sequence), exec (.extend h other) s = .next t → h ≠ other →
      s.seqs[other]? = some o → t.seqs[other]? = some { o with consumed := true })

/-- The frame of every instruction over the agents: no other caller's record changes; the issuer's program stays; so do
the schedule, the turn's record and the port; and no Sequence disappears. Programs, schedule, turn's record and port are
the model's own fields, logs 1, 2, 5 and 15. -/
def Obligations.ExecKeepsOtherAgents : Prop :=
  ∀ (i : Instr) (s t : State), exec i s = .next t →
    (∀ k, k ≠ s.issuer → t.caller k = s.caller k)
      ∧ (t.caller s.issuer).program = (s.caller s.issuer).program
      ∧ t.schedule = s.schedule ∧ t.issuer = s.issuer ∧ t.expire = s.expire ∧ t.port = s.port
      ∧ s.seqs.length ≤ t.seqs.length

/-- Every command that names no Sequence and no counter only returns a result: no Sequence, no counter and no pending
command changes (R36, R106). -/
def Obligations.PureCommandsOnlyReply : Prop :=
  ∀ (i : Instr) (s t : State), handlesOf (.sequence 0) i = [] → (∀ w c, i ≠ .decode w c) →
    (∀ x, i ≠ .newSequence x) → exec i s = .next t →
    t.seqs = s.seqs
      ∧ (t.caller s.issuer).counters = (s.caller s.issuer).counters
      ∧ (t.caller s.issuer).pending = (s.caller s.issuer).pending
      ∧ ∃ r, (t.caller s.issuer).replies = r :: (s.caller s.issuer).replies

/-- R249: a command that completes with an error changes no state: the next state is the old one with the error
returned; a pending `POP` or `READ` that ends in an error leaves every Sequence; `CHECK_MARKER` changes nothing in any
case. -/
def Obligations.ErrorsChangeNoState : Prop :=
  (∀ (i : Instr) (s t : State) (e : Error), exec i s = .next t →
      (t.caller s.issuer).replies = .error e :: (s.caller s.issuer).replies → t = s.reply (.error e))
    ∧ (∀ (s t : State) (k : Nat) (expire : Bool) (e : Error), (s.caller k).pending ≠ none →
      takeTurn (.caller k expire) s = .next t → (t.caller k).replies = .error e :: (s.caller k).replies →
      t.seqs = s.seqs ∧ (t.caller k).pending = none)
    ∧ (∀ (sub : SubSequence) (expected : CustomWord) (s t : State), exec (.checkMarker sub expected) s = .next t →
      ∃ r, t = s.reply r)

/-- R247: where the Sequences a command names exist, it is refused exactly when its operands break one of (a)-(e), (g)
or one of those Sequences has been consumed (f). That `RECEIVE`, `IS_COMPLETE` and `CHECK_MARKER` are not refused for a
CustomWord without payload is the model's choice, log 23. -/
def Obligations.RefusedExactly : Prop :=
  ∀ (i : Instr) (s : State), (∀ h ∈ handlesOf s.port i, h < s.seqs.length) →
    ((∃ r, exec i s = .refused r) ↔
      i.wellFormed = false ∨ ∃ h ∈ handlesOf s.port i, ∃ q, s.seqs[h]? = some q ∧ q.consumed = true)

/-- Every instruction completes: with operands that meet their preconditions, on Sequences that exist, are not consumed
and whose locks are free, `exec` answers a next state. That this takes in a packet of `RECEIVE`, `IS_COMPLETE` or
`CHECK_MARKER` that is a CustomWord without payload, and an `EXTEND` of a Sequence with itself, is the model's choice,
logs 23 and 10. -/
def Obligations.WellFormedLiveCompletes : Prop :=
  ∀ (i : Instr) (s : State), i.wellFormed = true → (∀ h ∈ handlesOf s.port i, ∃ q, s.HasLive h q) →
    ∃ t, exec i s = .next t

/-- R34 (b), R35, R58: a command changes a reader's `enabled` only if it is `START_READER` or `STOP_READER` of that
Sequence; none changes a reader's phase or batch, or a timeout; and none leaves a lock held that was free. That this holds
also of the consumed `other` of an `EXTEND` is the model's choice, log 9. -/
def Obligations.CommandsKeepReader : Prop :=
  ∀ (i : Instr) (s t : State) (h : Nat) (q q' : Sequence), exec i s = .next t → s.seqs[h]? = some q →
    t.seqs[h]? = some q' →
    (q'.reader.enabled ≠ q.reader.enabled → i = .startReader h ∨ i = .stopReader h)
      ∧ q'.reader.phase = q.reader.phase ∧ q'.reader.batch = q.reader.batch ∧ q'.timeout = q.timeout
      ∧ (q.lock = none → q'.lock = none)

/-- R257: the only instructions that change a Sequence's `ts_sw` are an OVF word decoded against it, which adds one, and
an `EXTEND` of it, which adds the other's. That the consumed `other` of an `EXTEND` keeps its counter is the model's choice,
log 9; that an `EXTEND` of a Sequence with itself doubles it is log 10. -/
def Obligations.CounterWriters : Prop :=
  ∀ (i : Instr) (s t : State) (h : Nat) (q q' : Sequence), exec i s = .next t → s.seqs[h]? = some q →
    t.seqs[h]? = some q' → q'.tsSw ≠ q.tsSw →
    (((i = .ovf ∧ s.port = .sequence h) ∨ ∃ w : RawWord, i = .receiveWord h w ∧ w >>> 60 = 0xF#64) ∧ q'.tsSw = q.tsSw + 1)
      ∨ ∃ other o, i = .extend h other ∧ s.seqs[other]? = some o ∧ q'.tsSw = q.tsSw + o.tsSw

/-- R27, R29, R55: only `POP` removes packets; every other instruction leaves the packets of every Sequence in their order
at the front. For the consumed `other` of an `EXTEND`, that it keeps its packets, unrebased and in place, is the model's
choice, logs 9 and 10; for an `EXTEND` of a Sequence with itself it is log 10. -/
def Obligations.PacketsOnlyAppended : Prop :=
  ∀ (i : Instr) (s t : State) (h : Nat) (q q' : Sequence), exec i s = .next t → s.seqs[h]? = some q →
    t.seqs[h]? = some q' → (∀ n x, i ≠ .pop h n x) → q.queue.flatten <+: q'.queue.flatten

/-- A step runs the instruction it fetches: on the turn of a caller that waits for nothing, the next item of its program,
a word through the decoder with the item's handle as the port, a command as it stands; the item is taken off the
program and the turn off the schedule. With nothing to issue only the turn's record changes; any turn is the first of
the schedule, taken; with no turn, nothing changes. The schedule and the programs as lists, the port, and what a step does
with no turn or nothing to issue are the model's choice, logs 1, 2 and 5, and no rule's; so is a command item that holds a
word instruction, which runs against the port that stands there, log 25. -/
def Obligations.StepRunsFetchedInstruction : Prop :=
  (∀ (s : State) (k : Nat) (expire : Bool) (turns : List Turn) (port : Port) (w : RawWord) (items : List Item),
      s.schedule = .caller k expire :: turns → (s.caller k).pending = none →
      (s.caller k).program = .word port w :: items →
      step s = exec (decode w)
        { ({ s with schedule := turns, issuer := k, expire := expire }.setProgram k items) with port := port })
    ∧ (∀ (s : State) (k : Nat) (expire : Bool) (turns : List Turn) (i : Instr) (items : List Item),
      s.schedule = .caller k expire :: turns → (s.caller k).pending = none →
      (s.caller k).program = .command i :: items →
      step s = exec i ({ s with schedule := turns, issuer := k, expire := expire }.setProgram k items))
    ∧ (∀ (s : State) (k : Nat) (expire : Bool) (turns : List Turn),
      s.schedule = .caller k expire :: turns → (s.caller k).pending = none → (s.caller k).program = [] →
      step s = .next { s with schedule := turns, issuer := k, expire := expire })
    ∧ (∀ (s : State) (turn : Turn) (turns : List Turn), s.schedule = turn :: turns →
      step s = takeTurn turn { s with schedule := turns })
    ∧ (∀ s : State, s.schedule = [] → step s = .next s)

/-- R31, R32: the invariant holds at reset, and no command is pending there. That no Sequence exists at reset is the
model's choice, log 18: R271 speaks only of a Sequence that has been created. -/
def Obligations.ResetSatisfiesInvariant : Prop :=
  State.reset.Inv ∧ State.reset.seqs = [] ∧ ∀ k, (State.reset.caller k).pending = none

/-- R32 and the other rules of `State.Inv`: every step, of a caller, a reader or none, keeps the invariant. -/
def Obligations.StepKeepsInvariant : Prop :=
  ∀ s s' : State, s.Inv → step s = .next s' → s'.Inv

/-- R275: under the fairness of R174, a reader that stays disabled reaches Idle in finite time and stays there. Executions
and their fairness are the model's reading of R174, log 16; that this holds also of the reader of a consumed Sequence is the
model's choice, log 9. -/
def Obligations.StoppedReaderReachesIdle : Prop :=
  ∀ (e : Execution) (n h : Nat), e.Fair →
    (∀ m, n ≤ m → ∃ q, (e.state m).seqs[h]? = some q ∧ q.reader.enabled = false) →
    ∃ m, n ≤ m ∧ ∀ l, m ≤ l → ∃ q, (e.state l).seqs[h]? = some q ∧ q.reader.phase = .idle

/-! ## The Squash/Merge Engine -/

/-- R200, R201, R202: strict `SQUASH` raises `StrictSmartReadout` with the count of smart-only packets if there is one;
otherwise `SQUASH` returns the merged list and that count. -/
def Obligations.SquashResult : Prop :=
  ∀ (packets : List ChipData) (strict : Bool) (s : State), packets.all ChipData.inRange = true →
    let count := (packets.filter (fun p => decide (p.bottom = false ∧ p.hitmap.toNat % 16 = 0))).length
    (strict = true → 0 < count →
        exec (.squash packets strict) s = .next (s.reply (.error (.strictSmartReadout count))))
      ∧ ((strict = false ∨ count = 0) →
        exec (.squash packets strict) s = .next (s.reply (.squashed (squash packets) count)))

/-- R207, R204: the output has strictly descending keys, as many as the packets that are not smart-only have; its
packets are, one for each such key, the first input packet of the key with `bottom = 1` and the OR of the key's
hitmaps. -/
def Obligations.SquashMergesGroups : Prop :=
  ∀ packets : List ChipData,
    let kept := packets.filter (fun p => !smartOnly p)
    (squash packets).Pairwise (fun a b => masterIdx b < masterIdx a)
      ∧ (∀ k, (∃ o ∈ squash packets, masterIdx o = k) ↔ ∃ p ∈ kept, masterIdx p = k)
      ∧ (∀ o ∈ squash packets, ∃ first rest,
        kept.filter (fun p => decide (masterIdx p = masterIdx o)) = first :: rest
          ∧ o = { first with bottom := true, hitmap := rest.foldl (fun x p => x ||| p.hitmap) first.hitmap })
      ∧ (squash packets).length = (kept.map masterIdx).dedup.length
      ∧ smartCount packets + kept.length = packets.length

/-- R203: the sort is a reordering, descending in `master_idx`, and equal keys keep their input order. -/
def Obligations.SquashSortIsStable : Prop :=
  ∀ packets : List ChipData,
    (sortByMaster packets).Perm packets
      ∧ (sortByMaster packets).Pairwise (fun a b => masterIdx b ≤ masterIdx a)
      ∧ ∀ k, (sortByMaster packets).filter (fun p => decide (masterIdx p = k))
        = packets.filter (fun p => decide (masterIdx p = k))

/-- R206: for every sorted array and every contiguous partition of it, empty parts allowed, the parallel form gives what
one pass gives, in every field and in order. -/
def Obligations.ParallelPassEquivalent : Prop :=
  ∀ (sizes : List Nat) (arr : List ChipData), sizes.sum = arr.length →
    arr.Pairwise (fun a b => masterIdx b ≤ masterIdx a) → passParallel sizes arr = pass arr

/-! ## The Edge-Artifact Classifier -/

/-- R220, R225, R226: `CLASSIFY` on sorted `tps` returns the tags of the function `classify`, one per hit, whose closed
form by R220 to R224 is `Obligations.ClassifyTagsByWindows`; on unsorted `tps` it is refused. -/
def Obligations.ClassifyResult : Prop :=
  ∀ (tps : List U32) (hits : List ChipData) (tsDelta : U32) (tol : Tolerance) (s : State),
    (tps.Pairwise (fun a b => a.toNat ≤ b.toNat) → hits.all ChipData.inRange = true →
        exec (.classify tps hits tsDelta tol) s = .next (s.reply (.tags (classify tps hits tsDelta tol)))
          ∧ (classify tps hits tsDelta tol).length = hits.length)
      ∧ (¬ tps.Pairwise (fun a b => a.toNat ≤ b.toNat) →
        exec (.classify tps hits tsDelta tol) s = .refused .tpsNotSorted)

/-- R220-R224 in closed form: a hit finds a test pulse if one lies in its closed window; it finds an accepted hit if some
hit of its lane, earlier in time or equal in time and earlier in the input, itself finds a test pulse and lies in the
closed window. The tag follows from the two. -/
def Obligations.ClassifyTagsByWindows : Prop :=
  ∀ (tps : List U32) (hits : List ChipData) (tsDelta : U32) (tol : Tolerance) (n : Nat) (p : ChipData),
    (∀ q ∈ hits, q.ser.toNat < 16) → hits[n]? = some p →
    let finds : ChipData → Prop := fun q => ∃ x ∈ tps,
      (q.tsExt.toNat : Int) - 5 - tol.tpN.toInt ≤ (x.toNat : Int)
        ∧ (x.toNat : Int) ≤ (q.tsExt.toNat : Int) - 5 + tol.tpP.toInt
    let follows : Prop := ∃ (m : Nat) (q : ChipData), hits[m]? = some q ∧ q.ser = p.ser ∧ finds q
      ∧ (q.tsExt.toNat < p.tsExt.toNat ∨ (q.tsExt = p.tsExt ∧ m < n))
      ∧ (p.tsExt.toNat : Int) - (tsDelta.toNat : Int) - tol.feN.toInt ≤ (q.tsExt.toNat : Int)
      ∧ (q.tsExt.toNat : Int) ≤ (p.tsExt.toNat : Int) - (tsDelta.toNat : Int) + tol.feP.toInt
    ((classify tps hits tsDelta tol)[n]? = some .ambiguous ↔ finds p ∧ follows)
      ∧ ((classify tps hits tsDelta tol)[n]? = some .risingEdge ↔ finds p ∧ ¬ follows)
      ∧ ((classify tps hits tsDelta tol)[n]? = some .fallingEdge ↔ ¬ finds p ∧ follows)
      ∧ ((classify tps hits tsDelta tol)[n]? = some .isolated ↔ ¬ finds p ∧ ¬ follows)

/-- R227: the tags of one lane's hits, in input order, depend on the other lanes' hits in no way. -/
def Obligations.LaneIndependence : Prop :=
  ∀ (tps : List U32) (hits hits' : List ChipData) (tsDelta : U32) (tol : Tolerance) (lane : U8),
    (∀ q ∈ hits, q.ser.toNat < 16) → (∀ q ∈ hits', q.ser.toNat < 16) →
    hits.filter (fun q => decide (q.ser = lane)) = hits'.filter (fun q => decide (q.ser = lane)) →
    ((hits.zip (classify tps hits tsDelta tol)).filter (fun x => decide (x.1.ser = lane))).map (fun x => x.2)
      = ((hits'.zip (classify tps hits' tsDelta tol)).filter (fun x => decide (x.1.ser = lane))).map (fun x => x.2)
end

