-- ==== Sys2Proof/Laws/State.lean ====
section
/-! SUPPORT. One lemma per field per update of the state, and the read-after-write laws of its accessors. -/

namespace Sys2Proof.Machine

variable (s : State) (k h : Nat) (c : Caller) (q : Sequence) (r : Reply) (p : Option Pending) (e : Bool)
  (items : List Item) (v : U32) (n : Nat)

theorem getD_padSet {α : Type} (d : α) (v : α) : ∀ (k j : Nat) (l : List α),
    (padSet d k v l).getD j d = if j = k then v else l.getD j d
  | 0, 0, [] => by simp [padSet]
  | 0, j + 1, [] => by simp [padSet]
  | 0, 0, _ :: _ => by simp [padSet]
  | 0, j + 1, _ :: _ => by simp [padSet]
  | k + 1, 0, [] => by simp [padSet]
  | k + 1, j + 1, [] => by
    have := getD_padSet d v k j []
    simp only [List.getD_eq_getElem?_getD, List.getElem?_nil, Option.getD_none] at this
    simp [padSet, this]
  | k + 1, 0, _ :: _ => by simp [padSet]
  | k + 1, j + 1, _ :: rest => by
    have := getD_padSet d v k j rest
    simp only [List.getD_eq_getElem?_getD] at this
    simp [padSet, this]

/-- Writing back the value a place already has changes nothing, inside the list. -/
theorem padSet_getD {α : Type} (d : α) : ∀ (k : Nat) (l : List α), k < l.length → padSet d k (l.getD k d) l = l
  | 0, _ :: _, _ => by simp [padSet]
  | k + 1, x :: rest, hk => by
    have := padSet_getD d k rest (by simpa using hk)
    simp only [List.getD_eq_getElem?_getD] at this
    simp [padSet, this]

/-- The later of two writes to one place counts. -/
theorem padSet_padSet {α : Type} (d : α) (v w : α) : ∀ (k : Nat) (l : List α),
    padSet d k w (padSet d k v l) = padSet d k w l
  | 0, [] => rfl
  | 0, _ :: _ => rfl
  | k + 1, [] => by simp [padSet, padSet_padSet d v w k []]
  | k + 1, _ :: rest => by simp [padSet, padSet_padSet d v w k rest]

@[simp] theorem caller_idle_beyond (hk : s.callers.length ≤ k) : s.caller k = Caller.idle := by
  simp [State.caller, List.getD_eq_getElem?_getD, List.getElem?_eq_none hk]

/-! ### `putCaller` -/

@[simp] theorem putCaller_seqs : (s.putCaller k c).seqs = s.seqs := rfl
@[simp] theorem putCaller_schedule : (s.putCaller k c).schedule = s.schedule := rfl
@[simp] theorem putCaller_issuer : (s.putCaller k c).issuer = s.issuer := rfl
@[simp] theorem putCaller_expire : (s.putCaller k c).expire = s.expire := rfl
@[simp] theorem putCaller_port : (s.putCaller k c).port = s.port := rfl
theorem putCaller_caller (j : Nat) : (s.putCaller k c).caller j = if j = k then c else s.caller j :=
  getD_padSet _ _ _ _ _
@[simp] theorem putCaller_caller_self : (s.putCaller k c).caller k = c := by simp [putCaller_caller]
@[simp] theorem putCaller_caller_other {j : Nat} (hj : j ≠ k) : (s.putCaller k c).caller j = s.caller j := by
  simp [putCaller_caller, hj]
@[simp] theorem putCaller_putCaller (c' : Caller) : (s.putCaller k c).putCaller k c' = s.putCaller k c' := by
  simp [State.putCaller, padSet_padSet]

/-! ### `putSeq` -/

@[simp] theorem putSeq_seqs : (s.putSeq h q).seqs = s.seqs.set h q := rfl
@[simp] theorem putSeq_callers : (s.putSeq h q).callers = s.callers := rfl
@[simp] theorem putSeq_caller : (s.putSeq h q).caller k = s.caller k := rfl
@[simp] theorem putSeq_schedule : (s.putSeq h q).schedule = s.schedule := rfl
@[simp] theorem putSeq_issuer : (s.putSeq h q).issuer = s.issuer := rfl
@[simp] theorem putSeq_expire : (s.putSeq h q).expire = s.expire := rfl
@[simp] theorem putSeq_port : (s.putSeq h q).port = s.port := rfl

/-- Writing back the Sequence that is there changes nothing. -/
theorem putSeq_same (hq : s.seqs[h]? = some q) : s.putSeq h q = s := by
  obtain ⟨hl, rfl⟩ := List.getElem?_eq_some_iff.mp hq
  simp [State.putSeq]

/-! ### `reply`, `setPending`, `setProgram` -/

@[simp] theorem reply_seqs : (s.reply r).seqs = s.seqs := rfl
@[simp] theorem reply_schedule : (s.reply r).schedule = s.schedule := rfl
@[simp] theorem reply_issuer : (s.reply r).issuer = s.issuer := rfl
@[simp] theorem reply_expire : (s.reply r).expire = s.expire := rfl
@[simp] theorem reply_port : (s.reply r).port = s.port := rfl
@[simp] theorem reply_caller_other (hk : k ≠ s.issuer) : (s.reply r).caller k = s.caller k := by
  simp [State.reply, hk]
@[simp] theorem reply_caller_self : (s.reply r).caller s.issuer =
    { s.caller s.issuer with replies := r :: (s.caller s.issuer).replies } := by
  simp [State.reply]

@[simp] theorem setPending_seqs : (s.setPending p).seqs = s.seqs := rfl
@[simp] theorem setPending_schedule : (s.setPending p).schedule = s.schedule := rfl
@[simp] theorem setPending_issuer : (s.setPending p).issuer = s.issuer := rfl
@[simp] theorem setPending_expire : (s.setPending p).expire = s.expire := rfl
@[simp] theorem setPending_port : (s.setPending p).port = s.port := rfl
@[simp] theorem setPending_caller_other (hk : k ≠ s.issuer) : (s.setPending p).caller k = s.caller k := by
  simp [State.setPending, hk]
@[simp] theorem setPending_caller_self :
    (s.setPending p).caller s.issuer = { s.caller s.issuer with pending := p } := by
  simp [State.setPending]

@[simp] theorem setProgram_seqs : (s.setProgram k items).seqs = s.seqs := rfl
@[simp] theorem setProgram_schedule : (s.setProgram k items).schedule = s.schedule := rfl
@[simp] theorem setProgram_issuer : (s.setProgram k items).issuer = s.issuer := rfl
@[simp] theorem setProgram_expire : (s.setProgram k items).expire = s.expire := rfl
@[simp] theorem setProgram_port : (s.setProgram k items).port = s.port := rfl
theorem setProgram_caller (j : Nat) : (s.setProgram k items).caller j =
    if j = k then { s.caller k with program := items } else s.caller j := by
  simp [State.setProgram, putCaller_caller]

/-! ### `underTurn` -/

@[simp] theorem underTurn_seqs : (s.underTurn k e).seqs = s.seqs := rfl
@[simp] theorem underTurn_caller (j : Nat) : (s.underTurn k e).caller j = s.caller j := rfl
@[simp] theorem underTurn_callers : (s.underTurn k e).callers = s.callers := rfl
@[simp] theorem underTurn_schedule : (s.underTurn k e).schedule = s.schedule := rfl
@[simp] theorem underTurn_issuer : (s.underTurn k e).issuer = k := rfl
@[simp] theorem underTurn_expire : (s.underTurn k e).expire = e := rfl
@[simp] theorem underTurn_port : (s.underTurn k e).port = s.port := rfl

/-! ### Counters -/

@[simp] theorem putCounter_same : s.putCounter n (s.counter n) = s := by simp [State.putCounter]
@[simp] theorem putCounter_seqs : (s.putCounter n v).seqs = s.seqs := by
  unfold State.putCounter; split <;> rfl
@[simp] theorem putCounter_schedule : (s.putCounter n v).schedule = s.schedule := by
  unfold State.putCounter; split <;> rfl
@[simp] theorem putCounter_issuer : (s.putCounter n v).issuer = s.issuer := by
  unfold State.putCounter; split <;> rfl
@[simp] theorem putCounter_expire : (s.putCounter n v).expire = s.expire := by
  unfold State.putCounter; split <;> rfl
@[simp] theorem putCounter_port : (s.putCounter n v).port = s.port := by
  unfold State.putCounter; split <;> rfl
@[simp] theorem putCounter_caller_other (hk : k ≠ s.issuer) : (s.putCounter n v).caller k = s.caller k := by
  unfold State.putCounter; split
  · rfl
  · simp [hk]

/-- Reading a counter after a write of one: the value written, or what it was. -/
theorem putCounter_counter (j : Nat) : (s.putCounter n v).counter j = if j = n then v else s.counter j := by
  unfold State.putCounter
  split
  · next hv => split <;> simp_all
  · simp only [State.counter, putCaller_issuer, putCaller_caller_self, getD_padSet]

@[simp] theorem putCounter_program (j : Nat) :
    ((s.putCounter n v).caller j).program = (s.caller j).program := by
  unfold State.putCounter; split
  · rfl
  · rw [putCaller_caller]; split <;> simp_all

@[simp] theorem putCounter_pending (j : Nat) :
    ((s.putCounter n v).caller j).pending = (s.caller j).pending := by
  unfold State.putCounter; split
  · rfl
  · rw [putCaller_caller]; split <;> simp_all

@[simp] theorem putCounter_replies (j : Nat) :
    ((s.putCounter n v).caller j).replies = (s.caller j).replies := by
  unfold State.putCounter; split
  · rfl
  · rw [putCaller_caller]; split <;> simp_all

@[simp] theorem reply_counter (j : Nat) : (s.reply r).counter j = s.counter j := by
  simp [State.counter]

end Sys2Proof.Machine
end

