-- ==== Sys2Proof/Laws/Ops.lean ====
section
/-! SUPPORT. What each shared operation can do, said once. -/

namespace Sys2Proof.Machine

variable {s t : State} {h : Nat} {q : Sequence}

theorem guarded_next {ok : Bool} {r : Refusal} {run : Result} (hx : guarded ok r run = .next t) :
    ok = true ∧ run = .next t := by
  unfold guarded at hx
  split at hx
  · exact ⟨‹_›, hx⟩
  · cases hx

@[simp] theorem guarded_true (r : Refusal) (run : Result) : guarded true r run = run := rfl
@[simp] theorem guarded_false (r : Refusal) (run : Result) : guarded false r run = .refused r := rfl

@[simp] theorem conclude_seqs (s : State) (e : Ending) : (s.conclude e).seqs = s.seqs := by cases e <;> rfl

/-- A lock body that answers a next state ran on the named Sequence with its lock free, and left it free. -/
theorem locked_next {who : Agent} {body : Sequence → Sequence × Ending} (hx : s.locked h who body = .next t) :
    ∃ q, s.seqs[h]? = some q ∧ q.lock = none
      ∧ t = (s.putSeq h { (body { q with lock := some who }).1 with lock := none }).conclude
          (body { q with lock := some who }).2 := by
  unfold State.locked at hx
  split at hx
  · cases hx
  · next q hq =>
    split at hx
    · cases hx
    · next hl => exact ⟨q, hq, hl, (Host.Outcome.next.inj hx).symm⟩

theorem locked_eq {who : Agent} {body : Sequence → Sequence × Ending} (hq : s.seqs[h]? = some q)
    (hl : q.lock = none) :
    s.locked h who body = .next ((s.putSeq h { (body { q with lock := some who }).1 with lock := none }).conclude
      (body { q with lock := some who }).2) := by
  simp [State.locked, hq, hl]

theorem named_ok (hx : s.named h = .ok q) : s.seqs[h]? = some q ∧ q.consumed = false := by
  unfold State.named at hx
  split at hx
  · cases hx
  · next q' hq =>
    split at hx
    · cases hx
    · next hc => cases hx; exact ⟨hq, by simpa using hc⟩

theorem named_eq (hq : s.seqs[h]? = some q) (hc : q.consumed = false) : s.named h = .ok q := by
  simp [State.named, hq, hc]

/-- A command that answers a next state ran its body on a live Sequence. -/
theorem commandOn_next {body : Sequence → Sequence × Ending} (hx : s.commandOn h body = .next t) :
    ∃ q, s.HasLive h q
      ∧ t = (s.putSeq h { (body { q with lock := some (.caller s.issuer) }).1 with lock := none }).conclude
          (body { q with lock := some (.caller s.issuer) }).2 := by
  unfold State.commandOn at hx
  split at hx
  · cases hx
  · next q hq =>
    obtain ⟨q', hq', hl, ht⟩ := locked_next hx
    obtain ⟨hs, hc⟩ := named_ok hq
    obtain rfl : q = q' := Option.some.inj (hs.symm.trans hq')
    exact ⟨q, ⟨hq', hl, hc⟩, ht⟩

theorem commandOn_live {body : Sequence → Sequence × Ending} (hq : s.HasLive h q) :
    s.commandOn h body =
      .next ((s.putSeq h { (body { q with lock := some (.caller s.issuer) }).1 with lock := none }).conclude
        (body { q with lock := some (.caller s.issuer) }).2) := by
  simp [State.commandOn, named_eq hq.named hq.unconsumed, locked_eq hq.named hq.free]

/-- What the lock body of `POP` and `READ` does: one of four endings (R163-R166). -/
theorem resolve_cases (expire : Bool) (p : Pending) (q : Sequence) :
    (∃ sub, q.queue[p.index]? = some sub ∧ ready p sub = true
        ∧ resolve expire p q = (takeAt p.kind p.index q, .answer (.sub sub)))
      ∨ ((∀ sub, q.queue[p.index]? = some sub → ready p sub = false)
        ∧ ((p.readerActive = false
              ∧ resolve expire p q = (q, .answer (.error (.popIndexOutOfRange p.index q.queue.length))))
          ∨ (p.readerActive = true ∧ expire = true
              ∧ resolve expire p q = (q, .answer (.error (.popTimedOut p.index))))
          ∨ (p.readerActive = true ∧ expire = false ∧ resolve expire p q = (q, .wait p)))) := by
  have blocked : (∀ sub, q.queue[p.index]? = some sub → ready p sub = false) →
      ((p.readerActive = false
              ∧ resolve expire p q = (q, .answer (.error (.popIndexOutOfRange p.index q.queue.length))))
          ∨ (p.readerActive = true ∧ expire = true
              ∧ resolve expire p q = (q, .answer (.error (.popTimedOut p.index))))
          ∨ (p.readerActive = true ∧ expire = false ∧ resolve expire p q = (q, .wait p))) := by
    intro hb
    cases hg : q.queue[p.index]? with
    | none => cases ha : p.readerActive <;> cases he : expire <;> simp [resolve, hg, ha]
    | some sub =>
      have := hb sub hg
      cases ha : p.readerActive <;> cases he : expire <;> simp [resolve, hg, ha, this]
  cases hg : q.queue[p.index]? with
  | none => exact .inr ⟨by simp, blocked (by simp [hg])⟩
  | some sub =>
    cases hr : ready p sub with
    | true => exact .inl ⟨sub, rfl, hr, by simp [resolve, hg, hr]⟩
    | false =>
      have hb : ∀ x, some sub = some x → ready p x = false := by rintro x ⟨⟩; exact hr
      exact .inr ⟨hb, blocked (by rw [hg]; exact hb)⟩

end Sys2Proof.Machine
end

