-- ==== Sys2Proof/Laws/Framing.lean ====
section
/-! SUPPORT. Framing: what appending a packet and concatenating queues do to a queue. -/

namespace Sys2Proof.Machine

theorem eq_nil_or_snoc {α : Type} (l : List α) : l = [] ∨ ∃ init a, l = init ++ [a] := by
  rcases List.eq_nil_or_concat l with hl | ⟨init, a, hl⟩
  · exact .inl hl
  · exact .inr ⟨init, a, by simpa using hl⟩

theorem isComplete_iff (sub : SubSequence) :
    isComplete sub = true ↔ ∃ init m, sub = init ++ [Packet.customWord m] := by
  rcases eq_nil_or_snoc sub with rfl | ⟨init, p, rfl⟩
  · simp [isComplete]
  · cases p <;> simp [isComplete, isMarker]

@[simp] theorem isComplete_concat (sub : SubSequence) (p : Packet) : isComplete (sub ++ [p]) = isMarker p := by
  simp [isComplete]

@[simp] theorem hasOpen_nil : hasOpen [] = false := rfl

@[simp] theorem hasOpen_concat (pre : List SubSequence) (sub : SubSequence) :
    hasOpen (pre ++ [sub]) = !isComplete sub := by
  simp [hasOpen]

@[simp] theorem appendPacket_nil (p : Packet) : appendPacket [] p = [[p]] := rfl

theorem appendPacket_open (pre : List SubSequence) (sub : SubSequence) (p : Packet) (hs : isComplete sub = false) :
    appendPacket (pre ++ [sub]) p = pre ++ [sub ++ [p]] := by
  simp [appendPacket, hs]

theorem appendPacket_closed (queue : List SubSequence) (p : Packet) (hs : hasOpen queue = false) :
    appendPacket queue p = queue ++ [[p]] := by
  simp [appendPacket, hs]

/-- A queue is either not open, or it ends in an incomplete SubSequence. -/
theorem hasOpen_cases (queue : List SubSequence) :
    hasOpen queue = false ∨ ∃ pre sub, queue = pre ++ [sub] ∧ isComplete sub = false := by
  rcases eq_nil_or_snoc queue with rfl | ⟨pre, sub, rfl⟩
  · exact .inl rfl
  · cases hs : isComplete sub
    · exact .inr ⟨pre, sub, rfl, hs⟩
    · exact .inl (by simp [hs])

@[simp] theorem appendPacket_flatten (queue : List SubSequence) (p : Packet) :
    (appendPacket queue p).flatten = queue.flatten ++ [p] := by
  rcases hasOpen_cases queue with hq | ⟨pre, sub, rfl, hs⟩
  · simp [appendPacket_closed _ _ hq]
  · simp [appendPacket_open _ _ _ hs]

@[simp] theorem concatQueues_nil (queue : List SubSequence) : concatQueues queue [] = queue := rfl

theorem concatQueues_open (pre : List SubSequence) (sub first : SubSequence) (rest : List SubSequence)
    (hs : isComplete sub = false) :
    concatQueues (pre ++ [sub]) (first :: rest) = pre ++ (sub ++ first) :: rest := by
  simp [concatQueues, hs]

theorem concatQueues_closed (queue absorbed : List SubSequence) (hs : hasOpen queue = false) :
    concatQueues queue absorbed = queue ++ absorbed := by
  cases absorbed <;> simp [concatQueues, hs]

@[simp] theorem concatQueues_flatten (queue absorbed : List SubSequence) :
    (concatQueues queue absorbed).flatten = queue.flatten ++ absorbed.flatten := by
  rcases hasOpen_cases queue with hq | ⟨pre, sub, rfl, hs⟩
  · simp [concatQueues_closed _ _ hq]
  · cases absorbed with
    | nil => simp
    | cons first rest => simp [concatQueues_open _ _ _ _ hs]

/-- What absorbing a decoded word does to each field. -/
theorem absorbDecoded_eq (q : Sequence) (d : Decoded) :
    absorbDecoded q d = { q with
      tsSw := d.2
      queue := match d.1 with
        | some p => appendPacket q.queue p
        | none => q.queue } := by
  rcases d with ⟨_ | p, v⟩ <;> rfl

@[simp] theorem rebase_marker (b : U32) (p : Packet) : isMarker (rebase b p) = isMarker p := by
  cases p <;> rfl

@[simp] theorem rebase_inRange (b : U32) (p : Packet) : (rebase b p).inRange = p.inRange := by
  cases p <;> rfl

@[simp] theorem isComplete_map_rebase (b : U32) (sub : SubSequence) :
    isComplete (sub.map (rebase b)) = isComplete sub := by
  rcases eq_nil_or_snoc sub with rfl | ⟨init, p, rfl⟩
  · rfl
  · simp

end Sys2Proof.Machine
end

