-- ==== Sys2Proof/Laws/Decoder.lean ====
section
/-! SUPPORT. The Word Decoder against a counter: the counter it leaves and the range of the packet it gives. -/

namespace Sys2Proof.Machine

/-- A decoder of one word against a counter (R100): it leaves the counter or adds one to it, and its packet is within
the declared ranges (R106). -/
structure DecodesOne (dec : U32 → Decoded) : Prop where
  counter : ∀ c, (dec c).2 = c ∨ (dec c).2 = c + 1
  ranged : ∀ c p, (dec c).1 = some p → p.inRange = true

theorem decodeOvf_one : DecodesOne decodeOvf :=
  ⟨fun _ => .inr rfl, fun _ _ hp => nomatch hp⟩

theorem decodeTp_one (ts : BitVec 24) : DecodesOne (decodeTp ts) := by
  refine ⟨fun _ => .inl rfl, fun _ _ hp => ?_⟩
  cases hp
  simp [Packet.inRange, TestPulse.inRange]
  omega

theorem decodeCw_one (message : BitVec 48) (payload : U8) : DecodesOne (decodeCw message payload) := by
  refine ⟨fun _ => .inl rfl, fun _ _ hp => ?_⟩
  cases hp
  simp [Packet.inRange, CustomWord.inRange]
  omega

theorem decodeChip_one (f : ChipFields) : DecodesOne (decodeChip f) := by
  refine ⟨fun _ => .inl rfl, fun _ _ hp => ?_⟩
  cases hp
  simp [Packet.inRange, ChipData.inRange, chipPacket]
  omega

theorem decodeWord_one (w : RawWord) : DecodesOne (decodeWord w) := by
  unfold decodeWord
  split
  · exact decodeOvf_one
  · split
    · exact decodeTp_one _
    · split
      · exact decodeCw_one _ _
      · exact decodeChip_one _

/-- Only a word of control value 0xF writes the counter. -/
theorem decodeWord_counter (w : RawWord) (c : U32) :
    (decodeWord w c).2 = if ctl w = 0xF#4 then c + 1 else c := by
  unfold decodeWord
  split
  · rfl
  · split
    · rfl
    · split <;> rfl

/-- The control field as the source writes it, the word shifted right by 60. -/
theorem ctl_eq_iff (w : RawWord) (c : BitVec 4) : ctl w = c ↔ w >>> 60 = c.setWidth 64 := by
  have hw := w.isLt
  have hc := c.isLt
  constructor
  · rintro rfl
    apply BitVec.eq_of_toNat_eq
    simp only [ctl, BitVec.toNat_ushiftRight, BitVec.toNat_setWidth, BitVec.extractLsb'_toNat,
      Nat.shiftRight_eq_div_pow]
    omega
  · intro hx
    have := congrArg BitVec.toNat hx
    apply BitVec.eq_of_toNat_eq
    simp only [ctl, BitVec.toNat_ushiftRight, BitVec.toNat_setWidth, BitVec.extractLsb'_toNat,
      Nat.shiftRight_eq_div_pow] at this ⊢
    omega

end Sys2Proof.Machine
end

