-- ==== Sys2Proof/Laws/Assembler.lean ====
section
/-! SUPPORT. The Sequence Assembler's lock bodies: what each may do to a Sequence and how it may end. -/

namespace Sys2Proof.Machine

variable {i : Instr} {h : Nat}

/-- The lock body of `POP` and `READ` neither reads nor writes the lock. -/
theorem resolve_lock (expire : Bool) (p : Pending) (q : Sequence) (who : Option Agent) :
    resolve expire p { q with lock := who } =
      ({ (resolve expire p q).1 with lock := who }, (resolve expire p q).2) := by
  unfold resolve
  cases q.queue[p.index]? with
  | none => simp
  | some sub =>
    simp only
    split
    · cases p.kind <;> rfl
    · rfl

/-- What a lock body of instruction `i` on handle `h`, run through port `port`, may do to a Sequence, and how it may
end. -/
structure BodyEffect (i : Instr) (port : Port) (h : Nat) (body : Sequence → Sequence × Ending) : Prop where
  phase : ∀ q, (body q).1.reader.phase = q.reader.phase
  batch : ∀ q, (body q).1.reader.batch = q.reader.batch
  timeout : ∀ q, (body q).1.timeout = q.timeout
  consumed : ∀ q, (body q).1.consumed = q.consumed
  /-- Only `START_READER` and `STOP_READER` write the flag. -/
  enabled : ∀ q, (body q).1.reader.enabled = q.reader.enabled ∨ i = .startReader h ∨ i = .stopReader h
  /-- Only an OVF word writes the counter. -/
  counter : ∀ q, (body q).1.tsSw = q.tsSw ∨ (body q).1.tsSw = q.tsSw + 1
    ∧ ((i = .ovf ∧ port = .sequence h) ∨ ∃ w : RawWord, i = .receiveWord h w ∧ ctl w = 0xF#4)
  /-- The queue gains one packet, loses one SubSequence by `POP`, or stays. -/
  queue : ∀ q, (body q).1.queue = q.queue ∨ (∃ p, p.inRange = true ∧ (body q).1.queue = appendPacket q.queue p)
    ∨ ∃ n x t, i = .pop h x t ∧ (body q).1.queue = q.queue.eraseIdx n
  /-- An error changes nothing (R249). -/
  failed : ∀ q e, (body q).2 = .answer (.error e) → (body q).1 = q
  /-- Waiting changes nothing; the command waits on `h` with a reader active (R163). -/
  waits : ∀ q p, (body q).2 = .wait p → (body q).1 = q ∧ p.seq = h ∧ p.readerActive = true
  answers : ∀ q, (body q).2 ≠ .quiet

theorem absorb_effect {port : Port} {dec : U32 → Decoded} (hd : DecodesOne dec)
    (hi : ∀ c, (dec c).2 = c ∨ (i = .ovf ∧ port = .sequence h) ∨ ∃ w : RawWord, i = .receiveWord h w ∧ ctl w = 0xF#4) :
    BodyEffect i port h (fun q => (absorbDecoded q (dec q.tsSw), .answer .done)) := by
  constructor <;> simp only [absorbDecoded_eq] <;> try (intros; first | rfl | simp_all; done)
  · intro q
    rcases hi q.tsSw with hs | hs
    · exact .inl hs
    · exact (hd.counter q.tsSw).imp_right (fun hc => ⟨hc, hs⟩)
  · intro q
    cases hp : (dec q.tsSw).1 with
    | none => exact .inl rfl
    | some p => exact .inr (.inl ⟨p, hd.ranged _ _ hp, rfl⟩)

theorem receive_effect (port : Port) {p : Packet} (hp : p.inRange = true) :
    BodyEffect i port h (fun q => (receivePacket q p, .answer .done)) := by
  constructor <;> simp only [receivePacket] <;> try (intros; first | rfl | simp_all; done)
  exact fun q => .inr (.inl ⟨p, hp, rfl⟩)

theorem setEnabled_effect (port : Port) (on : Bool) (hi : i = .startReader h ∨ i = .stopReader h) :
    BodyEffect i port h (fun q => (setEnabled on q, .answer .done)) := by
  constructor <;> simp only [setEnabled] <;> try (intros; first | rfl | simp_all)

theorem resolve_effect (port : Port) (expire : Bool) (kind : WaitKind) (n : Nat) (t : Option Seconds)
    (hi : kind = .pop → ∃ x u, i = .pop h x u) :
    BodyEffect i port h (fun q => resolve expire (pendingFor h kind n t q) q) := by
  have cases' : ∀ q, (∃ sub, resolve expire (pendingFor h kind n t q) q = (takeAt kind n q, .answer (.sub sub)))
      ∨ (∃ e, resolve expire (pendingFor h kind n t q) q = (q, .answer (.error e)))
      ∨ ((pendingFor h kind n t q).readerActive = true
        ∧ resolve expire (pendingFor h kind n t q) q = (q, .wait (pendingFor h kind n t q))) := by
    intro q
    rcases resolve_cases expire (pendingFor h kind n t q) q with
      ⟨sub, -, -, hr⟩ | ⟨-, ⟨-, hr⟩ | ⟨-, -, hr⟩ | ⟨ha, -, hr⟩⟩
    · exact .inl ⟨sub, hr⟩
    · exact .inr (.inl ⟨_, hr⟩)
    · exact .inr (.inl ⟨_, hr⟩)
    · exact .inr (.inr ⟨ha, hr⟩)
  constructor <;> intro q <;> obtain ⟨sub, hr⟩ | ⟨e, hr⟩ | ⟨ha, hr⟩ := cases' q <;> simp only [hr]
  all_goals cases kind <;> simp [takeAt]
  · obtain ⟨x, u, rfl⟩ := hi rfl
    exact .inr (.inr ⟨x, u, rfl⟩)
  all_goals exact ⟨rfl, ha⟩

end Sys2Proof.Machine
end

