-- ==== Sys2Proof/Laws/Encoding.lean ====
section
/-! SUPPORT. The fields of the words the encoder builds, and the class of a decoded word. -/

namespace Sys2Proof

@[simp] theorem ctl_chipWord (c : BitVec 4) (f : ChipFields) : ctl (chipWord c f) = c := by
  ext i hi
  simp only [ctl, chipWord]
  interval_cases i <;> simp

@[simp] theorem ctl_tpWord (ts : BitVec 24) : ctl (tpWord ts) = 0xA#4 := by
  ext i hi
  simp only [ctl, tpWord]
  interval_cases i <;> simp

@[simp] theorem ctl_cwWord (m : BitVec 48) (x : U8) : ctl (cwWord m x) = 0xC#4 := by
  ext i hi
  simp only [ctl, cwWord]
  interval_cases i <;> simp

@[simp] theorem ctl_ovfWord : ctl ovfWord = 0xF#4 := by decide

@[simp] theorem chipFields_chipWord (c : BitVec 4) (f : ChipFields) : chipFields (chipWord c f) = f := by
  obtain ⟨ser, tsFpga, ts, sec, col, corepr, hitmap, bottom⟩ := f
  simp only [chipFields, chipWord, ChipFields.mk.injEq]
  refine ⟨?_, ?_, ?_, ?_, ?_, ?_, ?_, by simp⟩
  all_goals
    ext i hi
    simp
    interval_cases i <;> simp

@[simp] theorem tpTs_tpWord (ts : BitVec 24) : tpTs (tpWord ts) = ts := by
  ext i hi
  simp only [tpTs, tpWord]
  interval_cases i <;> simp

@[simp] theorem cwMessage_cwWord (m : BitVec 48) (x : U8) : cwMessage (cwWord m x) = m := by
  ext i hi
  simp only [cwMessage, cwWord]
  interval_cases i <;> simp

@[simp] theorem cwPayload_cwWord (m : BitVec 48) (x : U8) : cwPayload (cwWord m x) = x := by
  ext i hi
  simp only [cwPayload, cwWord]
  interval_cases i <;> simp

end Sys2Proof
end

