-- ==== Sys2Proof/Laws/Exec.lean ====
section
/-! SUPPORT. What an instruction can do, said once: `exec_shape`, and from it what one Sequence can become. -/

namespace Sys2Proof.Machine

variable {i : Instr} {s t : State} {h : Nat}

/-- The four shapes of a meaning. -/
inductive Shape (i : Instr) (s : State) : Prop
  /-- It names no Sequence and no counter and only returns a result. -/
  | pure (names : handlesOf (.sequence 0) i = []) (here : handlesOf s.port i = []) (hd : ∀ w c, i ≠ .decode w c)
    (hn : ∀ x, i ≠ .newSequence x) (runs : i.wellFormed = true → ∃ r, exec i s = .next (s.reply r))
    (stops : i.wellFormed = false → ∃ r, exec i s = .refused r)
  /-- It decodes one word against a caller's counter. -/
  | counter (c : Nat) (dec : U32 → Decoded) (here : handlesOf s.port i = []) (ok : i.wellFormed = true)
    (word : handlesOf (.sequence 0) i ≠ [] ∨ ∃ w c, i = .decode w c) (one : DecodesOne dec)
    (runs : exec i s = .next ((s.putCounter c (dec (s.counter c)).2).reply (.packet (dec (s.counter c)).1)))
  /-- It runs one lock body on the Sequence it names. -/
  | body (h : Nat) (body : Sequence → Sequence × Ending) (here : handlesOf s.port i = [h])
    (names : handlesOf (.sequence 0) i ≠ []) (effect : i.wellFormed = true → BodyEffect i s.port h body)
    (runs : i.wellFormed = true → exec i s = s.commandOn h body)
    (stops : i.wellFormed = false → ∃ r, exec i s = .refused r)
  | extend (h other : Nat) (is : i = .extend h other)
  | create (x : Option Seconds) (is : i = .newSequence x)

/-- A word instruction, through whichever port. -/
theorem present_shape {dec : U32 → Decoded} (one : DecodesOne dec) (ok : i.wellFormed = true)
    (here : ∀ port, handlesOf port i = handlesOf.portHandles port)
    (hi : i = .ovf ∨ ∀ c, (dec c).2 = c) (runs : exec i s = s.present s.port dec) : Shape i s := by
  have word : handlesOf (.sequence 0) i ≠ [] := by simp [here, handlesOf.portHandles]
  cases hp : s.port with
  | counter c =>
    rw [hp] at runs
    exact .counter c dec (by rw [here, hp]; rfl) ok (.inl word) one runs
  | sequence h =>
    rw [hp] at runs
    refine .body h _ (by rw [here, hp]; rfl) word (fun _ => absorb_effect one fun c => ?_) (fun _ => runs)
      (by simp [ok])
    rcases hi with rfl | hi
    · exact .inr (.inl ⟨rfl, hp⟩)
    · exact .inl (hi c)

/-- A meaning guarded by its operands alone that returns one result. -/
theorem guarded_shape {r : Refusal} {run : Result} (names : ∀ port, handlesOf port i = [])
    (hd : ∀ w c, i ≠ .decode w c) (hn : ∀ x, i ≠ .newSequence x) (runs : exec i s = guarded i.wellFormed r run)
    (hr : ∃ x, run = .next (s.reply x)) : Shape i s := by
  refine .pure (names _) (names _) hd hn ?_ ?_
  · intro ok
    simpa [runs, ok] using hr
  · intro bad
    exact ⟨r, by simp [runs, bad]⟩

/-- Every instruction has one of the shapes. -/
theorem exec_shape (i : Instr) (s : State) : Shape i s := by
  cases i with
  | ovf => exact present_shape decodeOvf_one rfl (fun _ => rfl) (.inl rfl) rfl
  | tp ts => exact present_shape (decodeTp_one ts) rfl (fun _ => rfl) (.inr fun _ => rfl) rfl
  | cw m x => exact present_shape (decodeCw_one m x) rfl (fun _ => rfl) (.inr fun _ => rfl) rfl
  | chipData0 f => exact present_shape (decodeChip_one f) rfl (fun _ => rfl) (.inr fun _ => rfl) rfl
  | chipData1 f => exact present_shape (decodeChip_one f) rfl (fun _ => rfl) (.inr fun _ => rfl) rfl
  | chipData2 f => exact present_shape (decodeChip_one f) rfl (fun _ => rfl) (.inr fun _ => rfl) rfl
  | chipData3 f => exact present_shape (decodeChip_one f) rfl (fun _ => rfl) (.inr fun _ => rfl) rfl
  | chipData4 f => exact present_shape (decodeChip_one f) rfl (fun _ => rfl) (.inr fun _ => rfl) rfl
  | chipData5 f => exact present_shape (decodeChip_one f) rfl (fun _ => rfl) (.inr fun _ => rfl) rfl
  | chipData6 f => exact present_shape (decodeChip_one f) rfl (fun _ => rfl) (.inr fun _ => rfl) rfl
  | chipData7 f => exact present_shape (decodeChip_one f) rfl (fun _ => rfl) (.inr fun _ => rfl) rfl
  | chipData8 f => exact present_shape (decodeChip_one f) rfl (fun _ => rfl) (.inr fun _ => rfl) rfl
  | chipData9 f => exact present_shape (decodeChip_one f) rfl (fun _ => rfl) (.inr fun _ => rfl) rfl
  | chipDataB f => exact present_shape (decodeChip_one f) rfl (fun _ => rfl) (.inr fun _ => rfl) rfl
  | chipDataD f => exact present_shape (decodeChip_one f) rfl (fun _ => rfl) (.inr fun _ => rfl) rfl
  | chipDataE f => exact present_shape (decodeChip_one f) rfl (fun _ => rfl) (.inr fun _ => rfl) rfl
  | decode w c => exact .counter c (decodeWord w) rfl rfl (.inr ⟨w, c, rfl⟩) (decodeWord_one w) rfl
  | cwEq a b => exact guarded_shape (fun _ => rfl) (by simp) (by simp) rfl ⟨_, rfl⟩
  | secFromCol col => exact guarded_shape (fun _ => rfl) (by simp) (by simp) rfl ⟨_, rfl⟩
  | dcolFromCol col => exact guarded_shape (fun _ => rfl) (by simp) (by simp) rfl ⟨_, rfl⟩
  | coreprFromRow row => exact guarded_shape (fun _ => rfl) (by simp) (by simp) rfl ⟨_, rfl⟩
  | masterFromRow row => exact guarded_shape (fun _ => rfl) (by simp) (by simp) rfl ⟨_, rfl⟩
  | idxFromPos row col => exact guarded_shape (fun _ => rfl) (by simp) (by simp) rfl ⟨_, rfl⟩
  | masterIdx p => exact guarded_shape (fun _ => rfl) (by simp) (by simp) rfl ⟨_, rfl⟩
  | pixelsOf p =>
    refine guarded_shape (fun _ => rfl) (by simp) (by simp) rfl ?_
    cases pixelsOf p <;> exact ⟨_, rfl⟩
  | extendTs ts tsFpga tsSw => exact guarded_shape (fun _ => rfl) (by simp) (by simp) rfl ⟨_, rfl⟩
  | isComplete sub => exact guarded_shape (fun _ => rfl) (by simp) (by simp) rfl ⟨_, rfl⟩
  | receive h p =>
    refine .body h _ rfl (by simp [handlesOf]) (fun hp => receive_effect s.port hp) ?_ ?_
    · intro (hp : p.inRange = true)
      simp [exec, execReceive, hp]
    · intro (hp : p.inRange = false)
      simp [exec, execReceive, hp]
  | receiveWord h w =>
    refine .body h _ rfl (by simp [handlesOf]) (fun _ => absorb_effect (decodeWord_one w) fun c => ?_) (fun _ => rfl)
      (by simp [Instr.wellFormed])
    rw [decodeWord_counter]
    split
    · next hw => exact .inr (.inr ⟨w, rfl, hw⟩)
    · exact .inl rfl
  | pop h index timeout =>
    refine .body h _ rfl (by simp [handlesOf])
      (fun _ => resolve_effect s.port s.expire .pop index.toNat timeout fun _ => ⟨index, timeout, rfl⟩) ?_ ?_
    · intro (hp : decide (0 ≤ index) = true)
      simp only [exec, execPop, hp, guarded_true]
    · intro (hp : decide (0 ≤ index) = false)
      exact ⟨.negativeIndex, by simp only [exec, execPop, hp, guarded_false]⟩
  | read h index timeout =>
    refine .body h _ rfl (by simp [handlesOf])
      (fun _ => resolve_effect s.port s.expire .read index.toNat timeout (by simp)) ?_ ?_
    · intro (hp : decide (0 ≤ index) = true)
      simp only [exec, execRead, hp, guarded_true]
    · intro (hp : decide (0 ≤ index) = false)
      exact ⟨.negativeIndex, by simp only [exec, execRead, hp, guarded_false]⟩
  | extend h other => exact .extend h other rfl
  | startReader h =>
    exact .body h _ rfl (by simp [handlesOf]) (fun _ => setEnabled_effect s.port true (.inl rfl)) (fun _ => rfl)
      (by simp [Instr.wellFormed])
  | stopReader h =>
    exact .body h _ rfl (by simp [handlesOf]) (fun _ => setEnabled_effect s.port false (.inr rfl)) (fun _ => rfl)
      (by simp [Instr.wellFormed])
  | checkMarker sub expected =>
    refine guarded_shape (fun _ => rfl) (by simp) (by simp) rfl ?_
    split <;> exact ⟨_, rfl⟩
  | newSequence x => exact .create x rfl
  | squash packets strict =>
    refine guarded_shape (fun _ => rfl) (by simp) (by simp) rfl ?_
    split <;> exact ⟨_, rfl⟩
  | classify tps hits tsDelta tol =>
    refine .pure rfl rfl (by simp) (by simp) ?_ ?_
    · intro hw
      obtain ⟨h1, h2⟩ := Bool.and_eq_true_iff.mp hw
      exact ⟨_, by simp only [exec, execClassify, h1, h2, guarded_true]; rfl⟩
    · intro hw
      cases h1 : sortedAscending tps
      · exact ⟨.tpsNotSorted, by simp only [exec, execClassify, h1, guarded_false]⟩
      · have h2 : hits.all ChipData.inRange = false := by simpa [Instr.wellFormed, h1] using hw
        exact ⟨.fieldOutOfRange, by simp only [exec, execClassify, h1, h2, guarded_false, guarded_true]⟩

/-- An instruction that answers a next state had operands that meet its preconditions. -/
theorem wellFormed_of_next (stops : i.wellFormed = false → ∃ r, exec i s = .refused r) (hx : exec i s = .next t) :
    i.wellFormed = true := by
  cases hw : i.wellFormed
  · obtain ⟨r, hr⟩ := stops hw
    rw [hr] at hx
    cases hx
  · rfl

/-- `EXTEND` that answers a next state ran on two live Sequences; where they are one, it is consumed by itself. -/
theorem extend_next {other : Nat} (hx : exec (.extend h other) s = .next t) :
    ∃ q o, s.HasLive h q ∧ s.seqs[other]? = some o ∧ o.consumed = false
      ∧ t = ((s.putSeq other { o with consumed := true }).putSeq h
          { extendSequence q o with consumed := decide (h = other) }).reply .done := by
  simp only [exec, execExtend] at hx
  split at hx
  · cases hx
  · cases hx
  · next q o hq ho =>
    obtain ⟨hq, hqc⟩ := named_ok hq
    obtain ⟨ho, hoc⟩ := named_ok ho
    obtain ⟨q', hq', hl, rfl⟩ := locked_next hx
    rw [putSeq_seqs] at hq'
    by_cases hh : h = other
    · subst hh
      obtain rfl : q = o := Option.some.inj (hq.symm.trans ho)
      rw [List.getElem?_set_self (List.getElem?_eq_some_iff.mp hq).1] at hq'
      obtain rfl := Option.some.inj hq'
      exact ⟨q, q, ⟨hq, hl, hqc⟩, hq, hqc, by simp_all [State.conclude, extendSequence]⟩
    · rw [List.getElem?_set_ne (Ne.symm hh), hq] at hq'
      obtain rfl := Option.some.inj hq'
      exact ⟨q, o, ⟨hq, hl, hqc⟩, ho, hoc, by simp_all [State.conclude, extendSequence]⟩

/-- What a Sequence can become by one instruction: itself; what a lock body on it leaves, unlocked; an extension of
itself; itself, consumed. -/
theorem sequence_next {q q' : Sequence} (hx : exec i s = .next t) (hq : s.seqs[h]? = some q)
    (hq' : t.seqs[h]? = some q') :
    q' = q
      ∨ (∃ body who, BodyEffect i s.port h body ∧ q.lock = none ∧ q' = { (body { q with lock := who }).1 with lock := none })
      ∨ (∃ other o c, i = .extend h other ∧ s.seqs[other]? = some o ∧ q' = { extendSequence q o with consumed := c })
      ∨ q' = { q with consumed := true } := by
  have hl : h < s.seqs.length := (List.getElem?_eq_some_iff.mp hq).1
  have same (hs : t.seqs[h]? = s.seqs[h]?) : q' = q := Option.some.inj (hq'.symm.trans (hs.trans hq))
  cases exec_shape i s with
  | pure _ _ _ _ runs stops =>
    obtain ⟨r, hr⟩ := runs (wellFormed_of_next stops hx)
    rw [hr] at hx
    cases hx
    exact .inl (same rfl)
  | counter c dec _ _ _ _ runs =>
    rw [runs] at hx
    cases hx
    exact .inl (same (by simp))
  | body h' body _ _ effect runs stops =>
    have hw := wellFormed_of_next stops hx
    rw [runs hw] at hx
    obtain ⟨q₀, live, rfl⟩ := commandOn_next hx
    rw [conclude_seqs, putSeq_seqs] at hq' same
    by_cases hh : h' = h
    · subst hh
      obtain rfl : q₀ = q := Option.some.inj (live.named.symm.trans hq)
      rw [List.getElem?_set_self hl] at hq'
      exact .inr (.inl ⟨body, _, effect hw, live.free, (Option.some.inj hq').symm⟩)
    · exact .inl (same (List.getElem?_set_ne hh))
  | extend h' other is =>
    subst is
    obtain ⟨q₀, o, live, ho, hc, rfl⟩ := extend_next hx
    rw [reply_seqs, putSeq_seqs, putSeq_seqs] at hq' same
    by_cases hh : h' = h
    · subst hh
      obtain rfl : q₀ = q := Option.some.inj (live.named.symm.trans hq)
      rw [List.getElem?_set_self (by simpa using hl)] at hq'
      exact .inr (.inr (.inl ⟨other, o, _, rfl, ho, (Option.some.inj hq').symm⟩))
    · rw [List.getElem?_set_ne hh] at hq' same
      by_cases hoh : other = h
      · subst hoh
        obtain rfl : o = q := Option.some.inj (ho.symm.trans hq)
        rw [List.getElem?_set_self hl] at hq'
        exact .inr (.inr (.inr (Option.some.inj hq').symm))
      · exact .inl (same (List.getElem?_set_ne hoh))
  | create x is =>
    subst is
    obtain ⟨-, hx⟩ := guarded_next hx
    cases hx
    exact .inl (same (List.getElem?_append_left hl))

end Sys2Proof.Machine
end

