-- ==== Sys2Proof/Laws/PerInstr.lean ====
section
/-! SUPPORT. Per-instruction laws. `ControlNibble`: the control field of an instruction's word is its table row's match
value, and a command has no word (R71, R82). -/

namespace Sys2Proof.Laws.ControlNibble

/-- The row's match value in bits 63:60; none for a command. -/
def rowNibble : Instr → Option (BitVec 4)
  | .ovf => some 0xF#4
  | .tp _ => some 0xA#4
  | .cw _ _ => some 0xC#4
  | .chipData0 _ => some 0x0#4
  | .chipData1 _ => some 0x1#4
  | .chipData2 _ => some 0x2#4
  | .chipData3 _ => some 0x3#4
  | .chipData4 _ => some 0x4#4
  | .chipData5 _ => some 0x5#4
  | .chipData6 _ => some 0x6#4
  | .chipData7 _ => some 0x7#4
  | .chipData8 _ => some 0x8#4
  | .chipData9 _ => some 0x9#4
  | .chipDataB _ => some 0xB#4
  | .chipDataD _ => some 0xD#4
  | .chipDataE _ => some 0xE#4
  | .decode _ _ => none
  | .cwEq _ _ => none
  | .secFromCol _ => none
  | .dcolFromCol _ => none
  | .coreprFromRow _ => none
  | .masterFromRow _ => none
  | .idxFromPos _ _ => none
  | .masterIdx _ => none
  | .pixelsOf _ => none
  | .extendTs _ _ _ => none
  | .isComplete _ => none
  | .receive _ _ => none
  | .receiveWord _ _ => none
  | .pop _ _ _ => none
  | .read _ _ _ => none
  | .extend _ _ => none
  | .startReader _ => none
  | .stopReader _ => none
  | .checkMarker _ _ => none
  | .newSequence _ => none
  | .squash _ _ => none
  | .classify _ _ _ _ => none

/-- The law for one instruction. -/
def Statement (i : Instr) : Prop := (encode i).map ctl = rowNibble i

theorem ovf : Statement .ovf := by
  simp [Statement, encode, rowNibble]

theorem tp (ts : BitVec 24) : Statement (.tp ts) := by
  simp [Statement, encode, rowNibble]

theorem cw (message : BitVec 48) (payload : U8) : Statement (.cw message payload) := by
  simp [Statement, encode, rowNibble]

theorem chipData0 (f : ChipFields) : Statement (.chipData0 f) := by
  simp [Statement, encode, rowNibble]

theorem chipData1 (f : ChipFields) : Statement (.chipData1 f) := by
  simp [Statement, encode, rowNibble]

theorem chipData2 (f : ChipFields) : Statement (.chipData2 f) := by
  simp [Statement, encode, rowNibble]

theorem chipData3 (f : ChipFields) : Statement (.chipData3 f) := by
  simp [Statement, encode, rowNibble]

theorem chipData4 (f : ChipFields) : Statement (.chipData4 f) := by
  simp [Statement, encode, rowNibble]

theorem chipData5 (f : ChipFields) : Statement (.chipData5 f) := by
  simp [Statement, encode, rowNibble]

theorem chipData6 (f : ChipFields) : Statement (.chipData6 f) := by
  simp [Statement, encode, rowNibble]

theorem chipData7 (f : ChipFields) : Statement (.chipData7 f) := by
  simp [Statement, encode, rowNibble]

theorem chipData8 (f : ChipFields) : Statement (.chipData8 f) := by
  simp [Statement, encode, rowNibble]

theorem chipData9 (f : ChipFields) : Statement (.chipData9 f) := by
  simp [Statement, encode, rowNibble]

theorem chipDataB (f : ChipFields) : Statement (.chipDataB f) := by
  simp [Statement, encode, rowNibble]

theorem chipDataD (f : ChipFields) : Statement (.chipDataD f) := by
  simp [Statement, encode, rowNibble]

theorem chipDataE (f : ChipFields) : Statement (.chipDataE f) := by
  simp [Statement, encode, rowNibble]

theorem decode (w : RawWord) (c : Nat) : Statement (.decode w c) := rfl

theorem cwEq (a b : CustomWord) : Statement (.cwEq a b) := rfl

theorem secFromCol (col : U16) : Statement (.secFromCol col) := rfl

theorem dcolFromCol (col : U16) : Statement (.dcolFromCol col) := rfl

theorem coreprFromRow (row : U16) : Statement (.coreprFromRow row) := rfl

theorem masterFromRow (row : U16) : Statement (.masterFromRow row) := rfl

theorem idxFromPos (row col : U16) : Statement (.idxFromPos row col) := rfl

theorem masterIdx (p : ChipData) : Statement (.masterIdx p) := rfl

theorem pixelsOf (p : ChipData) : Statement (.pixelsOf p) := rfl

theorem extendTs (ts : U8) (tsFpga tsSw : U32) : Statement (.extendTs ts tsFpga tsSw) := rfl

theorem isComplete (sub : SubSequence) : Statement (.isComplete sub) := rfl

theorem receive (h : Nat) (p : Packet) : Statement (.receive h p) := rfl

theorem receiveWord (h : Nat) (w : RawWord) : Statement (.receiveWord h w) := rfl

theorem pop (h : Nat) (index : Int) (timeout : Option Seconds) : Statement (.pop h index timeout) := rfl

theorem read (h : Nat) (index : Int) (timeout : Option Seconds) : Statement (.read h index timeout) := rfl

theorem extend (h other : Nat) : Statement (.extend h other) := rfl

theorem startReader (h : Nat) : Statement (.startReader h) := rfl

theorem stopReader (h : Nat) : Statement (.stopReader h) := rfl

theorem checkMarker (sub : SubSequence) (expected : CustomWord) : Statement (.checkMarker sub expected) := rfl

theorem newSequence (timeout : Option Seconds) : Statement (.newSequence timeout) := rfl

theorem squash (packets : List ChipData) (strict : Bool) : Statement (.squash packets strict) := rfl

theorem classify (tps : List U32) (hits : List ChipData) (tsDelta : U32) (tol : Tolerance) : Statement (.classify tps hits tsDelta tol) := rfl

end Sys2Proof.Laws.ControlNibble
end

