-- ==== Sys2Proof/Tests/Slice0.lean ====
section
/-! SUPPORT. Tests. Expected results are those of spec/95_test_vectors.md (the vector is named) or of the rule named.
The theorems `witness_…` show that the hypotheses of the statements can be met. -/

namespace Sys2Proof.Machine.Tests

open Sys2Proof

/-! ### Helpers -/

/-- A wait bound of one second. -/
def second : Seconds := ⟨1, 0⟩

/-- A Sequence with free lock, idle reader and one second as its timeout. -/
def sequence (queue : List SubSequence) (tsSw : U32) (enabled : Bool) : Sequence :=
  ⟨queue, tsSw, none, ⟨enabled, .idle, []⟩, second, false⟩

/-- A state with these Sequences, otherwise as after reset. -/
def world (seqs : List Sequence) : State := { State.reset with seqs := seqs }

/-- The newest reply to caller 0. -/
def replyOf (o : Result) : Option Reply :=
  match o with
  | .next s => (s.caller 0).replies.head?
  | .fault _ => none
  | .refused _ => none

/-- The Sequence at a handle in the next state. -/
def sequenceOf (o : Result) (h : Nat) : Option Sequence :=
  match o with
  | .next s => s.seqs[h]?
  | .fault _ => none
  | .refused _ => none

/-- The refusal. -/
def refusalOf (o : Result) : Option Refusal :=
  match o with
  | .next _ => none
  | .fault _ => none
  | .refused r => some r

/-- Caller 0's counter 0 after the step. -/
def counterOf (o : Result) : Option U32 :=
  match o with
  | .next s => some (s.counter 0)
  | .fault _ => none
  | .refused _ => none

/-- Caller 0's command in progress after the step. -/
def pendingOf (o : Result) : Option Pending :=
  match o with
  | .next s => (s.caller 0).pending
  | .fault _ => none
  | .refused _ => none

/-- A state whose caller 0 has a counter of 7, V-D's. -/
def counting : State := { State.reset with callers := [{ Caller.idle with counters := [7] }] }

/-- A marker. -/
def mark (message : U64) (payload : U8) : Packet := .customWord ⟨message, some payload⟩

/-- W1's packet with the given `ts_sw` and `ts_ext`. -/
def chipOne (tsSw tsExt : U32) : ChipData := ⟨true, 1, 0, 2, 1, 5, 5, 4, tsSw, tsExt⟩

/-- A ChipData with the fields of the address vectors V-A. -/
def chipAt (bottom : Bool) (hitmap corepr col sec : U8) : ChipData := ⟨bottom, hitmap, corepr, col, sec, 0, 0, 0, 0, 0⟩

/-- `h(t)` and `h1(t)` of V-C. -/
def hit (ser : U8) (t : U32) : ChipData := ⟨true, 1, 0, 0, 0, 0, 0, ser, 0, t⟩

/-! ### Decoding: one word of every row, from R71-R75 and V-D -/

theorem test_decode_chip0 : decode 0x0400000505120003 = .chipData0 ⟨4, 5, 5, 1, 2, 0, 1, true⟩ := by decide
theorem test_decode_chip1 : decode 0x1000000000000001 = .chipData1 ⟨0, 0, 0, 0, 0, 0, 0, true⟩ := by decide
theorem test_decode_chip2 : decode 0x2F00000000000000 = .chipData2 ⟨15, 0, 0, 0, 0, 0, 0, false⟩ := by decide
theorem test_decode_chip3 : decode 0x3000000000000100 = .chipData3 ⟨0, 0, 0, 0, 0, 0, 0x80, false⟩ := by decide
theorem test_decode_chip4 : decode 0x4000000000000200 = .chipData4 ⟨0, 0, 0, 0, 0, 1, 0, false⟩ := by decide
theorem test_decode_chip5 : decode 0x5000000000010000 = .chipData5 ⟨0, 0, 0, 0, 1, 0, 0, false⟩ := by decide
theorem test_decode_chip6 : decode 0x6000000000100000 = .chipData6 ⟨0, 0, 0, 1, 0, 0, 0, false⟩ := by decide
theorem test_decode_chip7 : decode 0x7000000001000000 = .chipData7 ⟨0, 0, 1, 0, 0, 0, 0, false⟩ := by decide
theorem test_decode_chip8 : decode 0x8000000100000000 = .chipData8 ⟨0, 1, 0, 0, 0, 0, 0, false⟩ := by decide
theorem test_decode_chip9 :
    decode 0x9123456789ABCDEF = .chipData9 ⟨1, 0x234567, 0x89, 0xA, 0xB, 0x66, 0xF7, true⟩ := by decide
theorem test_decode_chipB : decode 0xB000000000000000 = .chipDataB ⟨0, 0, 0, 0, 0, 0, 0, false⟩ := by decide
theorem test_decode_chipD : decode 0xD000000000FF0000 = .chipDataD ⟨0, 0, 0, 15, 15, 0, 0, false⟩ := by decide
theorem test_decode_chipE :
    decode 0xEFFFFFFFFFFFFFFF = .chipDataE ⟨15, 0xFFFFFF, 0xFF, 15, 15, 127, 0xFF, true⟩ := by decide
theorem test_decode_tp : decode 0xAFFFFFFFFF123456 = .tp 0x123456 := by decide
theorem test_decode_cw : decode 0xCF12345678ABCDEF = .cw 0x12345678ABCD 0xEF := by decide
theorem test_decode_ovf : decode 0xFFFFFFFFFFFFFFFF = .ovf := by decide

/-- A bit string longer than a word is no word (R70). -/
theorem test_decode_too_long : decodeTableWord 72 0 = none := by decide

/-- A table row's 64 bits. -/
theorem test_decode_table_word : decodeTableWord 64 0xA000000000123456 = some (.tp 0x123456) := by decide

/-- W2: the canonical encoder. -/
theorem test_encode_canonical :
    encodePacket (.chipData (chipOne 0 0)) = some 0x0400000505120003
      ∧ encodePacket (.testPulse ⟨0x123456, 0, 0⟩) = some 0xA000000000123456
      ∧ encodePacket (mark 0x12345678ABCD 0xEF) = some 0xC012345678ABCDEF := by decide

/-- R81: a field out of range, and a marker without payload, are refused. -/
theorem test_encode_refuses :
    encodePacket (.testPulse ⟨0x1000000, 0, 0⟩) = none ∧ encodePacket (.customWord ⟨0xBEEF, none⟩) = none := by decide

/-! ### Preconditions on operands (R247): a term that meets each check, and one that does not -/

theorem test_wellFormed_coordinate :
    (Instr.secFromCol 511).wellFormed = true ∧ (Instr.secFromCol 512).wellFormed = false
      ∧ (Instr.dcolFromCol 512).wellFormed = false ∧ (Instr.coreprFromRow 512).wellFormed = false
      ∧ (Instr.masterFromRow 512).wellFormed = false ∧ (Instr.idxFromPos 512 0).wellFormed = false
      ∧ (Instr.idxFromPos 0 512).wellFormed = false := by decide
theorem test_wellFormed_ts_fpga :
    (Instr.extendTs 0 0xFFFFFF 0).wellFormed = true ∧ (Instr.extendTs 0 0x1000000 0).wellFormed = false := by decide
theorem test_wellFormed_tps_sorted :
    (Instr.classify [990, 990, 1000] [] 0 ⟨0, 0, 0, 0⟩).wellFormed = true
      ∧ (Instr.classify [1000, 990] [] 0 ⟨0, 0, 0, 0⟩).wellFormed = false := by decide
theorem test_wellFormed_index :
    (Instr.pop 0 0 none).wellFormed = true ∧ (Instr.pop 0 (-1) none).wellFormed = false
      ∧ (Instr.read 0 (-1) none).wellFormed = false := by decide
theorem test_wellFormed_timeout :
    (Instr.newSequence (some second)).wellFormed = true ∧ (Instr.newSequence (some ⟨0, 0⟩)).wellFormed = false := by
  decide
theorem test_wellFormed_chip_ranges :
    (Instr.masterIdx (chipAt true 1 127 15 15)).wellFormed = true
      ∧ (Instr.masterIdx (chipAt true 1 128 0 0)).wellFormed = false
      ∧ (Instr.masterIdx (chipAt true 1 0 16 0)).wellFormed = false
      ∧ (Instr.pixelsOf (chipAt true 1 0 0 16)).wellFormed = false
      ∧ (Instr.squash [{ chipAt true 1 0 0 0 with tsFpga := 0x1000000 }] false).wellFormed = false
      ∧ (Instr.classify [] [hit 16 0] 0 ⟨0, 0, 0, 0⟩).wellFormed = false := by decide
theorem test_wellFormed_packet_ranges :
    (Instr.receive 0 (.testPulse ⟨0x1000000, 0, 0⟩)).wellFormed = false
      ∧ (Instr.isComplete [mark 0x1000000000000 0]).wellFormed = false
      ∧ (Instr.cwEq ⟨0x1000000000000, none⟩ ⟨0, none⟩).wellFormed = false
      ∧ (Instr.checkMarker [] ⟨0x1000000000000, none⟩).wellFormed = false := by decide

/-! ### The Word Decoder -/

/-- V-D: a counter of 7 goes to 8, no packet. -/
theorem test_ovf : counterOf (exec .ovf counting) = some 8 ∧ replyOf (exec .ovf counting) = some (.packet none) := by
  decide

/-- V-Q1: the same word against a Sequence. -/
theorem test_ovf_sequence :
    sequenceOf (exec .ovf { world [sequence [] 0 false] with port := .sequence 0 }) 0 = some (sequence [] 1 false) := by
  decide

theorem test_tp :
    replyOf (exec (.tp 0x123456) counting)
      = some (.packet (some (.testPulse ⟨0x123456, 7, 0x123456⟩))) := by decide
theorem test_cw : replyOf (exec (.cw 0xBEEF 1) State.reset) = some (.packet (some (mark 0xBEEF 1))) := by decide

/-- V-D: the ten fields of `0x9123456789ABCDEF` against 7. -/
theorem test_chip9 :
    replyOf (exec (.chipData9 ⟨1, 0x234567, 0x89, 0xA, 0xB, 0x66, 0xF7, true⟩) counting)
      = some (.packet (some (.chipData ⟨true, 0xF7, 0x66, 0xB, 0xA, 0x89, 0x234567, 1, 7, 0x07234489⟩))) := by decide

/-- R79: every ChipData row gives the packet its neighbour gives. -/
theorem test_chip_rows_agree :
    ∀ mk ∈ [Instr.chipData0, Instr.chipData1, Instr.chipData2, Instr.chipData3, Instr.chipData4, Instr.chipData5,
        Instr.chipData6, Instr.chipData7, Instr.chipData8, Instr.chipData9, Instr.chipDataB, Instr.chipDataD,
        Instr.chipDataE],
      replyOf (exec (mk ⟨4, 5, 5, 1, 2, 0, 1, true⟩) State.reset) = some (.packet (some (.chipData (chipOne 0 5)))) := by
  decide

theorem test_decode_command :
    replyOf (exec (.decode 0x0400000505120003 0) counting)
      = some (.packet (some (.chipData (chipOne 7 0x07000005)))) := by decide

/-- V-W. -/
theorem test_cwEq :
    replyOf (exec (.cwEq ⟨0xBEEF, none⟩ ⟨0xBEEF, some 3⟩) State.reset) = some (.bool true)
      ∧ replyOf (exec (.cwEq ⟨0xBEEF, some 1⟩ ⟨0xBEEF, some 2⟩) State.reset) = some (.bool false)
      ∧ replyOf (exec (.cwEq ⟨0xBEEF, none⟩ ⟨0xBEEE, none⟩) State.reset) = some (.bool false) := by decide

/-! ### The Address Model (V-A) -/

theorem test_secFromCol :
    replyOf (exec (.secFromCol 36) State.reset) = some (.number 1)
      ∧ replyOf (exec (.secFromCol 511) State.reset) = some (.number 15) := by decide
theorem test_secFromCol_refused : refusalOf (exec (.secFromCol 512) State.reset) = some .coordinateOutOfRange := by
  decide
theorem test_dcolFromCol :
    replyOf (exec (.dcolFromCol 36) State.reset) = some (.number 2)
      ∧ replyOf (exec (.dcolFromCol 302) State.reset) = some (.number 7) := by decide
theorem test_coreprFromRow : replyOf (exec (.coreprFromRow 509) State.reset) = some (.number 127) := by decide
theorem test_masterFromRow :
    replyOf (exec (.masterFromRow 2) State.reset) = some (.number 1)
      ∧ replyOf (exec (.masterFromRow 509) State.reset) = some (.number 0) := by decide
theorem test_idxFromPos :
    replyOf (exec (.idxFromPos 1 0) State.reset) = some (.number 2)
      ∧ replyOf (exec (.idxFromPos 507 303) State.reset) = some (.number 3) := by decide
theorem test_masterIdx :
    replyOf (exec (.masterIdx (chipAt false 0x84 126 7 9)) State.reset) = some (.number 19454) := by decide
theorem test_pixelsOf :
    replyOf (exec (.pixelsOf (chipAt false 0x84 126 7 9)) State.reset)
      = some (.pixels [⟨509, 302⟩, ⟨507, 303⟩]) := by decide
theorem test_pixelsOf_error :
    replyOf (exec (.pixelsOf (chipAt false 0x01 127 15 15)) State.reset)
      = some (.error (.pixelOutOfRange (chipAt false 0x01 127 15 15))) := by decide

/-! ### Timestamps (V-T, V-R) -/

theorem test_extendTs :
    replyOf (exec (.extendTs 0xFF 0x123400 2) State.reset) = some (.timestamp 0x021233FF)
      ∧ replyOf (exec (.extendTs 0x80 0xABCD80 1) State.reset) = some (.timestamp 0x01ABCD80)
      ∧ replyOf (exec (.extendTs 0x00 0x000100 0x1FF) State.reset) = some (.timestamp 0xFF000100) := by decide
theorem test_extendTs_underflow :
    replyOf (exec (.extendTs 0x01 0 5) State.reset) = some (.timestamp 0xFFFFFF01) := by decide
theorem test_rebase_wraps :
    rebase 1 (.chipData { chipOne 0xFFFFFFFF 0xFF000005 with ts := 5 }) = .chipData (chipOne 0 5) := by decide
theorem test_rebase_testPulse : rebase 2 (.testPulse ⟨0x777, 1, 0x777⟩) = .testPulse ⟨0x777, 3, 0x777⟩ := by decide

/-! ### The Sequence Assembler (V-Q) -/

theorem test_isComplete :
    replyOf (exec (.isComplete []) State.reset) = some (.bool false)
      ∧ replyOf (exec (.isComplete [mark 1 0, .chipData (chipOne 0 5)]) State.reset) = some (.bool false)
      ∧ replyOf (exec (.isComplete [.chipData (chipOne 0 5), mark 1 0]) State.reset) = some (.bool true) := by decide

/-- V-Q3: a marker closes its own SubSequence. -/
theorem test_receive :
    sequenceOf (exec (.receive 0 (mark 2 0)) (world [sequence [[mark 1 0]] 0 false])) 0
      = some (sequence [[mark 1 0], [mark 2 0]] 0 false) := by decide

/-- W5: a packet goes into the open SubSequence. -/
theorem test_receiveWord :
    sequenceOf (exec (.receiveWord 0 0xA000000000000064) (world [sequence [[.chipData (chipOne 0 5)]] 0 false])) 0
      = some (sequence [[.chipData (chipOne 0 5), .testPulse ⟨0x64, 0, 0x64⟩]] 0 false) := by decide

/-- V-Q8. -/
theorem test_pop :
    sequenceOf (exec (.pop 0 1 none) (world [sequence [[mark 1 0], [mark 2 0]] 0 false])) 0
        = some (sequence [[mark 1 0]] 0 false)
      ∧ replyOf (exec (.pop 0 1 none) (world [sequence [[mark 1 0], [mark 2 0]] 0 false]))
        = some (.sub [mark 2 0]) := by decide

/-- V-Q10: pending; with the timeout taken, `PopTimedOut(0)`. -/
theorem test_pop_waits :
    pendingOf (exec (.pop 0 0 none) (world [sequence [] 0 true])) = some ⟨0, .pop, 0, true, second⟩
      ∧ replyOf (exec (.pop 0 0 none) (world [sequence [] 0 true])) = none
      ∧ replyOf (exec (.pop 0 0 none) { world [sequence [] 0 true] with expire := true })
        = some (.error (.popTimedOut 0)) := by decide

/-- V-Q9. -/
theorem test_read :
    sequenceOf (exec (.read 0 0 none) (world [sequence [[mark 1 0]] 0 false])) 0
        = some (sequence [[mark 1 0]] 0 false)
      ∧ replyOf (exec (.read 0 0 none) (world [sequence [[mark 1 0]] 0 false])) = some (.sub [mark 1 0]) := by decide

/-- V-Q13. -/
theorem test_extend :
    sequenceOf (exec (.extend 0 1)
        (world [sequence [[mark 1 0]] 5 false, sequence [[.chipData (chipOne 0 5)]] 0 false])) 0
      = some (sequence [[mark 1 0], [.chipData (chipOne 5 0x05000005)]] 5 false) := by decide

/-- R247 (f): the absorbed Sequence is not named again. -/
theorem test_consumed_refused :
    refusalOf (exec (.startReader 0) (world [{ sequence [] 0 false with consumed := true }]))
      = some (.consumedSequence 0) := by decide

theorem test_startReader :
    sequenceOf (exec (.startReader 0) (world [sequence [] 0 false])) 0 = some (sequence [] 0 true) := by decide
theorem test_stopReader :
    sequenceOf (exec (.stopReader 0) (world [sequence [] 0 true])) 0 = some (sequence [] 0 false) := by decide

/-- V-Q15. -/
theorem test_checkMarker :
    replyOf (exec (.checkMarker [.chipData (chipOne 0 5), mark 0xBEEF 3] ⟨0xBEEF, none⟩) State.reset) = some .done := by
  decide

/-- V-Q17: an empty SubSequence has no last packet and an empty snapshot, whatever DIAG_DEPTH is. -/
theorem test_checkMarker_empty :
    replyOf (exec (.checkMarker [] ⟨1, none⟩) State.reset)
      = some (.error (.controlMarkerMismatch ⟨1, none⟩ none [])) := by
  simp [exec, execCheckMarker, CustomWord.inRange, markerMatches, snapshot, State.raise, State.finish, replyOf,
    State.reply, State.putCaller, State.caller, State.reset, Caller.idle, padSet, guarded]

theorem test_newSequence :
    sequenceOf (exec (.newSequence (some second)) State.reset) 0 = some (sequence [] 0 false)
      ∧ replyOf (exec (.newSequence (some second)) State.reset) = some (.sequence 0) := by decide

/-! ### Squash and classify (V-S, V-C) -/

/-- V-S1's six packets. -/
def squashInput : List ChipData :=
  [{ chipAt true 0x01 3 2 1 with ts := 1 }, { chipAt true 0x02 0 0 0 with ts := 2 },
    { chipAt false 0x0C 3 2 1 with ts := 3 }, { chipAt false 0x30 3 2 1 with ts := 4 },
    { chipAt false 0x40 0 0 0 with ts := 5 }, { chipAt true 0x80 127 15 15 with ts := 6 }]

theorem test_squash :
    replyOf (exec (.squash squashInput false) State.reset)
      = some (.squashed [{ chipAt true 0x80 127 15 15 with ts := 6 }, { chipAt true 0x0D 3 2 1 with ts := 1 },
        { chipAt true 0x02 0 0 0 with ts := 2 }] 2) := by decide

/-- V-S2. -/
theorem test_squash_strict :
    replyOf (exec (.squash squashInput true) State.reset) = some (.error (.strictSmartReadout 2)) := by decide

/-- V-S4. -/
theorem test_squash_parallel :
    passParallel [2, 0, 2] (sortByMaster (squashInput.filter (fun p => !smartOnly p))) = squash squashInput := by decide

/-- V-S5. -/
theorem test_partitionCount :
    [0, 2047, 2048, 4095, 4096, 6144, 16383, 16384, 100000].map partitionCount = [1, 1, 1, 1, 2, 3, 7, 8, 8] := by
  decide

/-- V-C5: inclusive edges of the falling-edge window. -/
theorem test_classify :
    replyOf (exec (.classify [1000] [hit 0 1005, hit 0 1014, hit 0 1016, hit 0 1017] 10 ⟨1, 1, 1, 1⟩) State.reset)
      = some (.tags [.risingEdge, .fallingEdge, .fallingEdge, .isolated]) := by decide

/-- V-C7 and V-C6: a tie goes by input order; a negative window does not wrap. -/
theorem test_classify_ties :
    replyOf (exec (.classify [1000] [hit 0 1005, hit 0 1005] 0 ⟨0, 0, 0, 0⟩) State.reset)
        = some (.tags [.risingEdge, .ambiguous])
      ∧ replyOf (exec (.classify [0] [hit 0 3, hit 0 1005] 10 ⟨0, 0, 10, 0⟩) State.reset)
        = some (.tags [.isolated, .isolated]) := by decide

/-! ### Agents -/

/-- P5, fold 3: a batch with an overflow word folds in behind the open SubSequence. -/
theorem test_reader_fold :
    sequenceOf (takeTurn (.reader 0 .noData)
        (world [{ sequence [[.chipData (chipOne 0 5)]] 0 true with
          reader := ⟨true, .folding, [0xF000000000000000, 0xC000000000BEEF01]⟩ }])) 0
      = some (sequence [[.chipData (chipOne 0 5), mark 0xBEEF 1]] 1 true) := by decide

/-- The host's word is run by the next step from reset. -/
theorem test_withFetchWord :
    replyOf (step (State.reset.withFetchWord 64 0xC000000000BEEF01)) = some (.packet (some (mark 0xBEEF 1))) := by
  decide

/-- R240-R245, R250: the codes and the recovery classes. -/
theorem test_error_codes :
    [Error.pixelOutOfRange (chipOne 0 0), .popTimedOut 0, .popIndexOutOfRange 0 0,
        .controlMarkerMismatch ⟨0, none⟩ none [], .strictSmartReadout 0].map (fun e => (e.code, e.recoverable))
      = [(1, false), (2, true), (3, true), (4, false), (5, false)] := by decide

/-! ### Witnesses: states and operands that meet the hypotheses of the statements -/

/-- A ChipData with every field at the top of its range, and one with every field 0. -/
def chipTop : ChipData := ⟨true, 0xFF, 127, 15, 15, 0xFF, 0xFFFFFF, 15, 0xFFFFFFFF, 0xFFFFFFFF⟩
def chipZero : ChipData := ⟨false, 0, 0, 0, 0, 0, 0, 0, 0, 0⟩

/-- A test pulse packet that is no marker. -/
def pulse : Packet := .testPulse ⟨0xFFFFFF, 0, 0xFFFFFF⟩

/-- A Sequence whose last SubSequence is open, one whose last is complete. -/
def openSequence : Sequence := sequence [[mark 1 0], [pulse]] 7 false
def closedSequence : Sequence := sequence [[pulse, mark 1 0]] 2 true

/-- Sequence 0 open, Sequence 1 complete with its reader enabled. -/
def pair : State := world [openSequence, closedSequence]

theorem witness_DecodeInvertsEncode : encode (.tp 0xFFFFFF) = some 0xA000000000FFFFFF := by decide
theorem witness_DontCareBitsExactly :
    clearDontCare 0xAFFFFFFFFF123456 = clearDontCare 0xA000000000123456
      ∧ clearDontCare 0xCF00000000000000 = clearDontCare 0xC000000000000000
      ∧ clearDontCare 0xF000000000000000 = clearDontCare 0xFFFFFFFFFFFFFFFF := by decide
theorem witness_ChipControlNotRecorded :
    ctl 0x0000000000000001 ∉ [0xA#4, 0xC#4, 0xF#4] ∧ ctl 0xE000000000000001 ∉ [0xA#4, 0xC#4, 0xF#4]
      ∧ (0x0000000000000001 : RawWord).extractLsb' 0 60 = (0xE000000000000001 : RawWord).extractLsb' 0 60 := by decide
theorem witness_CanonicalRoundTrip :
    chipTop.inRange = true ∧ chipZero.inRange = true ∧ (⟨0xFFFFFF, 0, 0⟩ : TestPulse).inRange = true
      ∧ (⟨0xFFFFFFFFFFFF, some 0xFF⟩ : CustomWord).inRange = true
      ∧ (decodeWord 0 7).1.isSome = true ∧ (decodeWord 0xA000000000000000 7).1.isSome = true
      ∧ (decodeWord 0xC000000000000000 7).1.isSome = true := by decide
theorem witness_CanonicalEncoderFormulas :
    chipTop.inRange = true ∧ (⟨0xFFFFFF, 0, 0⟩ : TestPulse).inRange = true
      ∧ (⟨0xFFFFFFFFFFFF, some 0⟩ : CustomWord).inRange = true ∧ (⟨0xBEEF, none⟩ : CustomWord).payload = none
      ∧ (Packet.chipData { chipZero with corepr := 128 }).inRange = false := by decide

/-- For OvfWordIncrementsCounter, TpWordGivesTestPulse, CwWordGivesCustomWord, ChipWordsGiveChipData and
WordCommandsRunTheirWord: a caller's counter as the port, and a Sequence as the port. -/
theorem witness_word_ports :
    counting.port = .counter 0
      ∧ ({ pair with port := .sequence 0 } : State).port = .sequence 0
      ∧ ({ pair with port := .sequence 0 } : State).HasLive 0 openSequence := ⟨rfl, rfl, rfl, rfl, rfl⟩

theorem witness_CwEqResult :
    (⟨0xFFFFFFFFFFFF, some 1⟩ : CustomWord).inRange = true
      ∧ (⟨0xBEEF, some 1⟩ : CustomWord).message ≠ (⟨0xBEEE, some 1⟩ : CustomWord).message
      ∧ (⟨0xBEEF, none⟩ : CustomWord).message = (⟨0xBEEF, some 3⟩ : CustomWord).message := by decide
theorem witness_MarkerEqualityNotTransitive : (1 : U8) ≠ 2 := by decide
theorem witness_CoordinateFunctionResults :
    (511 : U16).toNat ≤ 511 ∧ (0 : U16).toNat ≤ 511 ∧ 511 < (512 : U16).toNat ∧ 511 < (65535 : U16).toNat := by decide
theorem witness_MasterIdxResult :
    masterIdx chipTop = 32767 ∧ masterIdx { chipTop with ts := 0 } = masterIdx chipTop
      ∧ decodeWord 0x0400000505120003 0 = (some (.chipData (chipOne 0 5)), 0) := by decide

/-- The raising case and its neighbours, and a packet with pixels. -/
theorem witness_PixelsOfResult :
    (chipAt false 0x01 127 15 15).inRange = true ∧ (chipAt false 0xF0 127 15 15).inRange = true
      ∧ (chipAt true 0x0F 127 15 15).inRange = true ∧ (chipAt false 0x0F 126 15 15).inRange = true := by decide
theorem witness_CoordinatesInvertPixels :
    pixelsOf (chipAt false 0x84 126 7 9) = some [⟨509, 302⟩, ⟨507, 303⟩]
      ∧ (setBits (chipAt false 0x84 126 7 9))[0]? = some 2
      ∧ (setBits (chipAt false 0x84 126 7 9))[1]? = some 7 := by decide
theorem witness_ExtendTsResult :
    (0xFFFFFF : U32).toNat < 2 ^ 24 ∧ 2 ^ 24 ≤ (0x1000000 : U32).toNat := by decide
theorem witness_ExtendTsCorners :
    (0xFE : U32).toNat < 256 ∧ (0xFE : U32).toNat < (0xFF : U8).toNat ∧ (0 : U32).toNat < (1 : U8).toNat := by decide
theorem witness_RebaseRecomputes : (decodeWord 0x0400000505120003 7).1 = some (.chipData (chipOne 7 0x07000005)) := by
  decide

/-- A complete SubSequence, and two that are not. -/
theorem witness_IsCompleteResult :
    (∃ init m, [pulse, mark 1 0] = init ++ [Packet.customWord m])
      ∧ (¬ ∃ init m, ([] : SubSequence) = init ++ [Packet.customWord m])
      ∧ ¬ ∃ init m, [mark 1 0, pulse] = init ++ [Packet.customWord m] :=
  ⟨⟨[pulse], _, rfl⟩, by simp, by simp only [← isComplete_iff]; decide⟩

theorem witness_ReceiveResult :
    (world [sequence [] 0 false]).HasLive 0 (sequence [] 0 false) ∧ pair.HasLive 0 openSequence
      ∧ pair.HasLive 1 closedSequence ∧ pulse.inRange = true
      ∧ openSequence.queue = [[mark 1 0]] ++ [[pulse]] ∧ (¬ ∃ init m, [pulse] = init ++ [Packet.customWord m])
      ∧ closedSequence.queue = [] ++ [[pulse] ++ [mark 1 0]] :=
  ⟨⟨rfl, rfl, rfl⟩, ⟨rfl, rfl, rfl⟩, ⟨rfl, rfl, rfl⟩, rfl, rfl, by simp only [← isComplete_iff]; decide, rfl⟩
theorem witness_ReceiveWordResult :
    pair.HasLive 0 openSequence ∧ (0xF000000000000000 : RawWord) >>> 60 = 0xF#64
      ∧ (0xE000000000000000 : RawWord) >>> 60 ≠ 0xF#64 := ⟨⟨rfl, rfl, rfl⟩, by decide, by decide⟩
theorem witness_PopWithoutReader :
    pair.HasLive 0 openSequence ∧ openSequence.reader.enabled = false ∧ openSequence.queue[1]? = some [pulse]
      ∧ openSequence.queue.length ≤ 2 := ⟨⟨rfl, rfl, rfl⟩, rfl, rfl, by decide⟩

/-- Complete at 0; nothing at 1; both choices of the turn. -/
theorem witness_PopWithReader :
    pair.HasLive 1 closedSequence ∧ closedSequence.reader.enabled = true
      ∧ closedSequence.queue[0]? = some ([pulse] ++ [Packet.customWord ⟨1, some 0⟩])
      ∧ (¬ ∃ init m, closedSequence.queue[1]? = some (init ++ [Packet.customWord m]))
      ∧ pair.expire = false ∧ ({ pair with expire := true } : State).HasLive 1 closedSequence ∧ (-1 : Int) < 0 :=
  ⟨⟨rfl, rfl, rfl⟩, rfl, rfl, by simp [closedSequence, sequence], rfl, ⟨rfl, rfl, rfl⟩, by decide⟩
theorem witness_ReadKeepsQueue :
    pair.HasLive 0 openSequence ∧ openSequence.reader.enabled = false ∧ openSequence.queue[0]? = some [mark 1 0]
      ∧ openSequence.queue.length ≤ 2 ∧ pair.HasLive 1 closedSequence ∧ closedSequence.reader.enabled = true
      ∧ closedSequence.queue[0]? = some ([pulse] ++ [Packet.customWord ⟨1, some 0⟩])
      ∧ ¬ ∃ init m, closedSequence.queue[1]? = some (init ++ [Packet.customWord m]) :=
  ⟨⟨rfl, rfl, rfl⟩, rfl, rfl, by decide, ⟨rfl, rfl, rfl⟩, rfl, rfl, by simp [closedSequence, sequence]⟩

/-- Caller 0 waits on place `n` of Sequence 1. -/
def waiting (n : Nat) : State := pair.setPending (some ⟨1, .pop, n, true, second⟩)

theorem witness_PendingCheck :
    ((waiting 0).caller 0).pending = some ⟨1, .pop, 0, true, second⟩ ∧ (waiting 0).seqs[1]? = some closedSequence
      ∧ closedSequence.lock = none ∧ closedSequence.queue[0]? = some ([pulse] ++ [Packet.customWord ⟨1, some 0⟩])
      ∧ ((waiting 1).caller 0).pending = some ⟨1, .pop, 1, true, second⟩
      ∧ ¬ ∃ init m, closedSequence.queue[1]? = some (init ++ [Packet.customWord m]) :=
  ⟨rfl, rfl, rfl, rfl, rfl, by simp [closedSequence, sequence]⟩

/-- An open Sequence absorbs a nonempty one, a complete one absorbs, and an empty one is absorbed. -/
theorem witness_ExtendResult :
    (0 : Nat) ≠ 1 ∧ pair.HasLive 0 openSequence ∧ pair.seqs[1]? = some closedSequence ∧ closedSequence.consumed = false
      ∧ openSequence.queue = [[mark 1 0]] ++ [[pulse]] ∧ (¬ ∃ init m, [pulse] = init ++ [Packet.customWord m])
      ∧ closedSequence.queue.map (List.map (rebase 7)) = [.testPulse ⟨0xFFFFFF, 7, 0xFFFFFF⟩, mark 1 0] :: []
      ∧ pair.HasLive 1 closedSequence ∧ closedSequence.queue = [] ++ [[pulse] ++ [Packet.customWord ⟨1, some 0⟩]]
      ∧ (sequence [] 0 false).queue.map (List.map (rebase 7)) = [] :=
  ⟨by decide, ⟨rfl, rfl, rfl⟩, rfl, rfl, rfl, by simp only [← isComplete_iff]; decide, rfl, ⟨rfl, rfl, rfl⟩, rfl, rfl⟩

/-- For `ExtendBySelf` and `StartStopReader`. -/
theorem witness_live : pair.HasLive 0 openSequence ∧ pair.HasLive 1 closedSequence :=
  ⟨⟨rfl, rfl, rfl⟩, ⟨rfl, rfl, rfl⟩⟩

theorem witness_CheckMarkerResult :
    [pulse, mark 0xBEEF 3].all Packet.inRange = true ∧ (⟨0xBEEF, none⟩ : CustomWord).inRange = true
      ∧ [pulse, mark 0xBEEF 3] = [pulse] ++ [Packet.customWord ⟨0xBEEF, some 3⟩]
      ∧ markerEq ⟨0xBEEF, some 3⟩ ⟨0xBEEF, none⟩ = true
      ∧ ¬ ∃ init m, [pulse] = init ++ [Packet.customWord m] ∧ markerEq m ⟨0xBEEF, none⟩ = true :=
  ⟨rfl, rfl, rfl, rfl, fun ⟨init, m, hs, _⟩ => absurd ((isComplete_iff _).mpr ⟨init, m, hs⟩) (by decide)⟩
theorem witness_NewSequenceResult :
    0 < (⟨1, 999⟩ : Seconds).numerator ∧ (⟨0, 0⟩ : Seconds).numerator ≤ 0 ∧ (⟨-1, 0⟩ : Seconds).numerator ≤ 0 := by
  decide

/-- One Sequence whose reader is in the given phase. -/
def inPhase (enabled : Bool) (phase : Phase) (batch : List RawWord) : Sequence :=
  { openSequence with reader := ⟨enabled, phase, batch⟩ }

theorem witness_ReaderAgentSteps :
    (world [inPhase true .idle []]).seqs[0]? = some (inPhase true .idle [])
      ∧ (world [inPhase false .idle []]).seqs[0]? = some (inPhase false .idle [])
      ∧ (world [inPhase true .reading []]).seqs[0]? = some (inPhase true .reading [])
      ∧ (∀ ws, Readout.noData ≠ .words ws) ∧ (∀ ws, Readout.idleTimeout ≠ .words ws)
      ∧ (world [inPhase false .folding [0]]).seqs[0]? = some (inPhase false .folding [0])
      ∧ (inPhase false .folding [0]).lock = none :=
  ⟨rfl, rfl, rfl, fun _ => nofun, fun _ => nofun, rfl, rfl⟩

/-- A step with two Sequences, naming one; and an `EXTEND` of the two. -/
theorem witness_OtherSequencesUntouched :
    (∃ t, exec (.receive 0 pulse) pair = .next t) ∧ 1 < pair.seqs.length ∧ 1 ∉ handlesOf pair.port (.receive 0 pulse)
      ∧ ∃ t, exec (.extend 0 1) pair = .next t := ⟨⟨_, rfl⟩, by decide, by decide, ⟨_, rfl⟩⟩
theorem witness_ExecKeepsOtherAgents : ∃ t, exec (.decode 0xF000000000000000 3) counting = .next t := ⟨_, rfl⟩
theorem witness_PureCommandsOnlyReply :
    handlesOf (.sequence 0) (.secFromCol 511) = [] ∧ (∀ w c, Instr.secFromCol 511 ≠ .decode w c)
      ∧ (∀ x, Instr.secFromCol 511 ≠ .newSequence x) ∧ ∃ t, exec (.secFromCol 511) pair = .next t :=
  ⟨rfl, fun _ _ => nofun, fun _ => nofun, ⟨_, rfl⟩⟩

/-- A `POP` that fails at once, a pending one that times out, and a marker check that completes. -/
theorem witness_ErrorsChangeNoState :
    (∃ t, exec (.pop 0 2 none) pair = .next t
        ∧ (t.caller 0).replies = .error (.popIndexOutOfRange 2 2) :: (pair.caller 0).replies)
      ∧ ((waiting 1).caller 0).pending ≠ none
      ∧ (∃ t, takeTurn (.caller 0 true) (waiting 1) = .next t
        ∧ (t.caller 0).replies = .error (.popTimedOut 1) :: ((waiting 1).caller 0).replies)
      ∧ ∃ t, exec (.checkMarker [mark 1 0] ⟨1, none⟩) pair = .next t :=
  ⟨⟨_, rfl, rfl⟩, by decide, ⟨_, rfl, rfl⟩, ⟨_, rfl⟩⟩

/-- A command refused for its operands, one refused for a consumed Sequence, one not refused. -/
theorem witness_RefusedExactly :
    (∀ h ∈ handlesOf pair.port (.pop 0 (-1) none), h < pair.seqs.length)
      ∧ (Instr.pop 0 (-1) none).wellFormed = false
      ∧ (world [{ openSequence with consumed := true }]).seqs[0]? = some { openSequence with consumed := true }
      ∧ (∃ r, exec (.startReader 0) (world [{ openSequence with consumed := true }]) = .refused r)
      ∧ ∃ t, exec (.pop 0 0 none) pair = .next t := ⟨by decide, rfl, rfl, ⟨_, rfl⟩, ⟨_, rfl⟩⟩
theorem witness_WellFormedLiveCompletes :
    (Instr.extend 0 1).wellFormed = true ∧ ∀ h ∈ handlesOf pair.port (.extend 0 1), ∃ q, pair.HasLive h q := by
  refine ⟨rfl, fun h hh => ?_⟩
  rcases List.mem_cons.mp hh with rfl | hh
  · exact ⟨_, rfl, rfl, rfl⟩
  · obtain rfl := List.mem_singleton.mp hh
    exact ⟨_, rfl, rfl, rfl⟩

/-- For CommandsKeepReader, CounterWriters and PacketsOnlyAppended: `START_READER` changes the flag, an overflow word and
an `EXTEND` the counter, a received packet the queue. -/
theorem witness_sequence_changes :
    (∃ t, exec (.startReader 0) pair = .next t ∧ t.seqs[0]? = some (setEnabled true openSequence)
        ∧ (setEnabled true openSequence).reader.enabled ≠ openSequence.reader.enabled)
      ∧ (∃ t, exec (.receiveWord 0 0xF000000000000000) pair = .next t
        ∧ t.seqs[0]? = some { openSequence with tsSw := 8 } ∧ (8 : U32) ≠ openSequence.tsSw)
      ∧ (∃ t q', exec (.extend 0 1) pair = .next t ∧ t.seqs[0]? = some q' ∧ q'.tsSw ≠ openSequence.tsSw)
      ∧ ∃ t, exec (.receive 0 pulse) pair = .next t ∧ t.seqs[0]? = some (receivePacket openSequence pulse) :=
  ⟨⟨_, rfl, rfl, by decide⟩, ⟨_, rfl, rfl, by decide⟩, ⟨_, _, rfl, rfl, by decide⟩, ⟨_, rfl, rfl⟩⟩

/-- Caller 0 is about to issue these items. -/
def issuing (items : List Item) : State :=
  { pair.setProgram 0 items with schedule := [.caller 0 false] }

theorem witness_StepRunsFetchedInstruction :
    (issuing [.word (.counter 0) 0xF000000000000000]).schedule = [.caller 0 false]
      ∧ ((issuing [.word (.counter 0) 0xF000000000000000]).caller 0).pending = none
      ∧ ((issuing [.word (.counter 0) 0xF000000000000000]).caller 0).program
        = [.word (.counter 0) 0xF000000000000000]
      ∧ ((issuing [.command (.startReader 0)]).caller 0).program = [.command (.startReader 0)]
      ∧ ((issuing []).caller 0).program = [] ∧ pair.schedule = [] := by decide

/-- A state with a nonempty open Sequence, a complete one and a waiting caller meets the invariant, and steps. -/
theorem witness_StepKeepsInvariant :
    (waiting 1).Inv ∧ ∃ t, step { waiting 1 with schedule := [.caller 0 true] } = .next t := by
  refine ⟨⟨fun q hq => ?_, fun k p hp => ?_⟩, ⟨_, rfl⟩⟩
  · have hq : q ∈ [openSequence, closedSequence] := hq
    simp only [List.mem_cons, List.not_mem_nil, or_false] at hq
    rcases hq with rfl | rfl <;> exact ⟨by decide, by decide, by decide, by decide, rfl, fun _ => rfl, by decide⟩
  · rcases k with _ | k
    · have hp : some (⟨1, .pop, 1, true, second⟩ : Pending) = some p := hp
      obtain rfl := Option.some.inj hp
      exact ⟨by decide, rfl⟩
    · have hk : ((waiting 1).caller (k + 1)).pending = none := by
        rw [caller_idle_beyond _ _ (by show 1 ≤ k + 1; omega)]
        rfl
      rw [hk] at hp
      cases hp

/-- A reader stopped while its readout is in flight: RETURN, FOLD, then idle for good. -/
def stopping : Nat → State
  | 0 => world [inPhase false .reading []]
  | 1 => world [inPhase false .folding []]
  | _ + 2 => world [inPhase false .idle []]

theorem stopping_seqs (n : Nat) : ∃ q, (stopping n).seqs[0]? = some q ∧ q.reader.enabled = false := by
  rcases n with _ | _ | n <;> exact ⟨_, rfl, rfl⟩

theorem stopping_pending (n k : Nat) : ((stopping n).caller k).pending = none := by
  rcases n with _ | _ | n <;> rw [caller_idle_beyond _ _ (Nat.zero_le k)] <;> rfl

theorem stopping_others (n h : Nat) : (stopping n).seqs[h + 1]? = none := by
  rcases n with _ | _ | n <;> rfl

theorem witness_StoppedReaderReachesIdle :
    ∃ e : Execution, e.Fair ∧ (∀ m, 0 ≤ m → ∃ q, (e.state m).seqs[0]? = some q ∧ q.reader.enabled = false)
      ∧ ∃ q, (e.state 0).seqs[0]? = some q ∧ q.reader.phase = .reading := by
  refine ⟨⟨stopping, fun _ => .reader 0 .noData, fun n => ?_⟩, ⟨?_, ?_, ?_⟩, fun m _ => stopping_seqs m, _, rfl, rfl⟩
  · rcases n with _ | _ | n <;> rfl
  · intro n k p hp
    exact absurd hp (by simp [stopping_pending])
  · intro n h q hq _
    rcases h with _ | h
    · exact ⟨n, .noData, le_refl n, rfl⟩
    · exact absurd hq (by simp [stopping_others])
  · intro n h hs
    rcases h with _ | h
    · exact ⟨n, .noData, le_refl n, rfl⟩
    · obtain ⟨q, hq, _⟩ := hs n (le_refl n)
      exact absurd hq (by simp [stopping_others])

theorem witness_SquashResult :
    squashInput.all ChipData.inRange = true
      ∧ 0 < (squashInput.filter (fun p => decide (p.bottom = false ∧ p.hitmap.toNat % 16 = 0))).length
      ∧ ([] : List ChipData).all ChipData.inRange = true := by decide

/-- Two packets of one key, and an empty part between two parts. -/
theorem witness_ParallelPassEquivalent :
    [1, 0, 1].sum = [chipAt true 1 3 2 1, chipAt false 2 3 2 1].length
      ∧ [chipAt true 1 3 2 1, chipAt false 2 3 2 1].Pairwise (fun a b => masterIdx b ≤ masterIdx a) := by decide
theorem witness_ClassifyResult :
    ([990, 990, 1000] : List U32).Pairwise (fun a b => a.toNat ≤ b.toNat) ∧ [hit 15 0].all ChipData.inRange = true
      ∧ ¬ ([1000, 990] : List U32).Pairwise (fun a b => a.toNat ≤ b.toNat) := by decide
theorem witness_ClassifyTagsByWindows :
    (∀ q ∈ [hit 0 1005, hit 15 1015], q.ser.toNat < 16) ∧ [hit 0 1005, hit 15 1015][1]? = some (hit 15 1015) := by
  decide
theorem witness_LaneIndependence :
    (∀ q ∈ [hit 0 1005, hit 1 1005, hit 0 1015], q.ser.toNat < 16) ∧ (∀ q ∈ [hit 0 1005, hit 0 1015], q.ser.toNat < 16)
      ∧ [hit 0 1005, hit 1 1005, hit 0 1015].filter (fun q => decide (q.ser = 0))
        = [hit 0 1005, hit 0 1015].filter (fun q => decide (q.ser = 0)) := by decide

end Sys2Proof.Machine.Tests
end

section
/-! SUPPORT. What one step does (R5, R6, R57): the turn it takes, and what a caller's turn issues when the caller waits
for nothing. -/

namespace Sys2Proof.Machine

theorem step_of_no_turn {s : State} (hs : s.schedule = []) : step s = .next s := by
  simp only [step, hs]

theorem step_of_turn {s : State} {turn : Turn} {turns : List Turn} (hs : s.schedule = turn :: turns) :
    step s = takeTurn turn { s with schedule := turns } := by
  simp only [step, hs]

theorem takeTurn_caller_word {s : State} {k : Nat} {port : Port} {w : RawWord} {items : List Item} (expire : Bool)
    (hp : (s.caller k).pending = none) (hi : (s.caller k).program = .word port w :: items) :
    takeTurn (.caller k expire) s =
      exec (decode w) { (s.underTurn k expire).setProgram k items with port := port } := by
  simp only [takeTurn, State.fetch, State.callerTurn, hp, hi]

theorem takeTurn_caller_command {s : State} {k : Nat} {i : Instr} {items : List Item} (expire : Bool)
    (hp : (s.caller k).pending = none) (hi : (s.caller k).program = .command i :: items) :
    takeTurn (.caller k expire) s = exec i ((s.underTurn k expire).setProgram k items) := by
  simp only [takeTurn, State.fetch, State.callerTurn, hp, hi]

theorem takeTurn_caller_nothing {s : State} {k : Nat} (expire : Bool)
    (hp : (s.caller k).pending = none) (hi : (s.caller k).program = []) :
    takeTurn (.caller k expire) s = .next (s.underTurn k expire) := by
  simp only [takeTurn, State.fetch, State.callerTurn, hp, hi]

/-- Settles O49: a step takes the first turn, and taking the turn off the schedule leaves every caller's record as it
is, so what that turn issues is the item at the head of the caller's program in the state before the step. -/
theorem stepRunsFetchedInstruction : Obligations.StepRunsFetchedInstruction := by
  refine ⟨?word, ?command, ?nothing, fun _ _ _ hs => step_of_turn hs, fun _ hs => step_of_no_turn hs⟩
  case word =>
    intro s k expire turns port w items hs hp hi
    exact (step_of_turn hs).trans (takeTurn_caller_word expire hp hi)
  case command =>
    intro s k expire turns i items hs hp hi
    exact (step_of_turn hs).trans (takeTurn_caller_command expire hp hi)
  case nothing =>
    intro s k expire turns hs hp hi
    exact (step_of_turn hs).trans (takeTurn_caller_nothing expire hp hi)

end Sys2Proof.Machine
end

section
/-! SUPPORT. The records of the callers: what concluding a lock body does to them. -/

namespace Sys2Proof.Machine

variable (s : State) (r : Reply) (e : Ending) (k : Nat)

@[simp] theorem reply_pending : ((s.reply r).caller k).pending = (s.caller k).pending := by
  by_cases hk : k = s.issuer
  · subst hk; simp
  · simp [hk]

@[simp] theorem reply_program : ((s.reply r).caller k).program = (s.caller k).program := by
  by_cases hk : k = s.issuer
  · subst hk; simp
  · simp [hk]

@[simp] theorem setPending_program (p : Option Pending) :
    ((s.setPending p).caller k).program = (s.caller k).program := by
  by_cases hk : k = s.issuer
  · subst hk; simp
  · simp [hk]

theorem setPending_pending (p : Option Pending) :
    ((s.setPending p).caller k).pending = if k = s.issuer then p else (s.caller k).pending := by
  by_cases hk : k = s.issuer
  · subst hk; simp
  · simp [hk]

@[simp] theorem setProgram_pending (j : Nat) (items : List Item) :
    ((s.setProgram k items).caller j).pending = (s.caller j).pending := by
  rw [setProgram_caller]
  split
  · next hj => rw [hj]
  · rfl

@[simp] theorem conclude_schedule : (s.conclude e).schedule = s.schedule := by cases e <;> rfl
@[simp] theorem conclude_issuer : (s.conclude e).issuer = s.issuer := by cases e <;> rfl
@[simp] theorem conclude_expire : (s.conclude e).expire = s.expire := by cases e <;> rfl
@[simp] theorem conclude_port : (s.conclude e).port = s.port := by cases e <;> rfl

@[simp] theorem conclude_caller_other (hk : k ≠ s.issuer) : (s.conclude e).caller k = s.caller k := by
  cases e <;> simp [State.conclude, hk]

@[simp] theorem conclude_program : ((s.conclude e).caller k).program = (s.caller k).program := by
  cases e <;> simp [State.conclude]

end Sys2Proof.Machine
end

section
/-! SUPPORT. The next state of an instruction, said once from `exec_shape`: five forms. -/

namespace Sys2Proof.Machine

/-- The forms of the next state `t` that instruction `i` answers in state `s`. -/
inductive NextForm (i : Instr) (s t : State) : Prop
  | replied (r : Reply) (eq : t = s.reply r)
  /-- A word met a counter of the issuer. -/
  | decoded (word : handlesOf (.sequence 0) i ≠ [] ∨ ∃ w c, i = .decode w c) (c : Nat) (v : U32) (r : Reply)
    (eq : t = (s.putCounter c v).reply r)
  /-- A lock body ran on the one live Sequence that `i` names. -/
  | ran (h : Nat) (q : Sequence) (body : Sequence → Sequence × Ending) (names : handlesOf (.sequence 0) i ≠ [])
    (here : handlesOf s.port i = [h]) (effect : BodyEffect i s.port h body) (live : s.HasLive h q)
    (runs : s.locked h (.caller s.issuer) body = .next t)
  | extended (h other : Nat) (q o : Sequence) (is : i = .extend h other) (live : s.HasLive h q)
    (absorbed : s.seqs[other]? = some o)
    (eq : t = ((s.putSeq other { o with consumed := true }).putSeq h
      { extendSequence q o with consumed := decide (h = other) }).reply .done)
  | created (x : Option Seconds) (is : i = .newSequence x) (positive : (timeoutOperand x).isPositive = true)
    (eq : t = State.reply { s with seqs := s.seqs ++ [Sequence.fresh (timeoutOperand x)] }
      (.sequence s.seqs.length))

variable {i : Instr} {s t : State} {h : Nat}

theorem commandOn_locked {body : Sequence → Sequence × Ending} (hx : s.commandOn h body = .next t) :
    (∃ q, s.HasLive h q) ∧ s.locked h (.caller s.issuer) body = .next t := by
  obtain ⟨q, live, ht⟩ := commandOn_next hx
  exact ⟨⟨q, live⟩, ht ▸ locked_eq live.named live.free⟩

/-- Every next state of an instruction has one of the forms. -/
theorem exec_next (hx : exec i s = .next t) : NextForm i s t := by
  cases exec_shape i s with
  | pure _ _ _ _ runs stops =>
    obtain ⟨r, hr⟩ := runs (wellFormed_of_next stops hx)
    exact .replied r (Host.Outcome.next.inj (hx.symm.trans hr))
  | counter c dec _ _ word _ runs => exact .decoded word c _ _ (Host.Outcome.next.inj (hx.symm.trans runs))
  | body h body here names effect runs stops =>
    have ok := wellFormed_of_next stops hx
    obtain ⟨⟨q, live⟩, hl⟩ := commandOn_locked ((runs ok).symm.trans hx)
    exact .ran h q body names here (effect ok) live hl
  | extend h other is =>
    obtain ⟨q, o, live, ho, -, ht⟩ := extend_next (is ▸ hx)
    exact .extended h other q o is live ho ht
  | create x is =>
    rw [is] at hx
    obtain ⟨positive, ht⟩ := guarded_next hx
    exact .created x is positive (Host.Outcome.next.inj ht).symm

end Sys2Proof.Machine
end

section
/-! SUPPORT. The queue part of the invariant (R14, R27, R32), under each operation on queues. -/

namespace Sys2Proof.Machine

/-- What the invariant says of one SubSequence: R32 (b), R27 and R14. -/
structure SubInv (sub : SubSequence) : Prop where
  inhabited : sub ≠ []
  closedOnce : ∀ p ∈ sub.dropLast, isMarker p = false
  ranged : ∀ p ∈ sub, p.inRange = true

/-- What the invariant says of a queue. -/
structure QueueInv (queue : List SubSequence) : Prop where
  framed : ∀ sub ∈ queue.dropLast, isComplete sub = true
  subs : ∀ sub ∈ queue, SubInv sub

theorem Sequence.Inv.queueInv {q : Sequence} (hq : q.Inv) : QueueInv q.queue :=
  ⟨hq.framed, fun sub hs => ⟨hq.inhabited sub hs, hq.closedOnce sub hs, hq.ranged sub hs⟩⟩

theorem QueueInv.nil : QueueInv [] := ⟨by simp, by simp⟩

theorem QueueInv.singleton {sub : SubSequence} (hs : SubInv sub) : QueueInv [sub] := ⟨by simp, by simpa using hs⟩

/-- A list of complete SubSequences in front of a queue. -/
theorem QueueInv.append {pre queue : List SubSequence} (complete : ∀ sub ∈ pre, isComplete sub = true)
    (subs : ∀ sub ∈ pre, SubInv sub) (hq : QueueInv queue) : QueueInv (pre ++ queue) := by
  refine ⟨fun sub hs => ?_, fun sub hs => (List.mem_append.mp hs).elim (subs sub) (hq.subs sub)⟩
  rw [List.dropLast_append] at hs
  split at hs
  · exact complete sub (List.mem_of_mem_dropLast hs)
  · exact (List.mem_append.mp hs).elim (complete sub) (hq.framed sub)

/-- Every SubSequence of a queue that is not open is complete. -/
theorem QueueInv.complete_of_closed {queue : List SubSequence} (hq : QueueInv queue) (closed : hasOpen queue = false) :
    ∀ sub ∈ queue, isComplete sub = true := by
  rcases eq_nil_or_snoc queue with rfl | ⟨pre, last, rfl⟩
  · simp
  · have hpre := hq.framed
    simp only [List.dropLast_concat] at hpre
    intro sub hs
    rcases List.mem_append.mp hs with hs | hs
    · exact hpre sub hs
    · obtain rfl := List.mem_singleton.mp hs
      simpa using closed

/-- An incomplete SubSequence holds no CustomWord at all: none in a last place, so none anywhere (R27). -/
theorem SubInv.no_marker {sub : SubSequence} (hs : SubInv sub) (incomplete : isComplete sub = false) :
    ∀ p ∈ sub, isMarker p = false := by
  rcases eq_nil_or_snoc sub with rfl | ⟨init, last, rfl⟩
  · simp
  · have hinit := hs.closedOnce
    simp only [List.dropLast_concat] at hinit
    rw [isComplete_concat] at incomplete
    simpa [or_imp, forall_and, incomplete] using hinit

/-- Merging a SubSequence into an incomplete one (R168). -/
theorem SubInv.merge {sub first : SubSequence} (hs : SubInv sub) (incomplete : isComplete sub = false)
    (hf : SubInv first) : SubInv (sub ++ first) where
  inhabited := by simp [hs.inhabited]
  closedOnce p hp := by
    rw [List.dropLast_append_of_ne_nil hf.inhabited] at hp
    exact (List.mem_append.mp hp).elim (hs.no_marker incomplete p) (hf.closedOnce p)
  ranged p hp := (List.mem_append.mp hp).elim (hs.ranged p) (hf.ranged p)

theorem isComplete_append {sub first : SubSequence} (hf : first ≠ []) :
    isComplete (sub ++ first) = isComplete first := by
  rcases eq_nil_or_snoc first with rfl | ⟨init, p, rfl⟩
  · exact absurd rfl hf
  · rw [← List.append_assoc, isComplete_concat, isComplete_concat]

/-- Merging in front keeps the rest of a queue: the merged SubSequence is complete where the one merged in is. -/
theorem QueueInv.merge_head {sub first : SubSequence} {rest : List SubSequence} (hs : SubInv sub)
    (incomplete : isComplete sub = false) (hq : QueueInv (first :: rest)) : QueueInv ((sub ++ first) :: rest) := by
  obtain ⟨hf, hr⟩ := List.forall_mem_cons.mp hq.subs
  refine ⟨?framed, List.forall_mem_cons.mpr ⟨hs.merge incomplete hf, hr⟩⟩
  case framed =>
    cases rest with
    | nil => simp
    | cons next rest =>
      have framed := hq.framed
      rw [List.dropLast_cons_cons] at framed ⊢
      simpa [isComplete_append hf.inhabited] using framed

/-- Concatenation (R168) keeps the queue's rules. -/
theorem QueueInv.concat {queue absorbed : List SubSequence} (hq : QueueInv queue) (ha : QueueInv absorbed) :
    QueueInv (concatQueues queue absorbed) := by
  rcases hasOpen_cases queue with closed | ⟨pre, sub, rfl, incomplete⟩
  · rw [concatQueues_closed _ _ closed]
    exact .append (hq.complete_of_closed closed) hq.subs ha
  · cases absorbed with
    | nil => exact hq
    | cons first rest =>
      obtain ⟨framed, subs⟩ := hq
      rw [List.dropLast_concat] at framed
      obtain ⟨hpre, hsub⟩ := List.forall_mem_append.mp subs
      rw [concatQueues_open _ _ _ _ incomplete]
      exact .append framed hpre (.merge_head (hsub sub (by simp)) incomplete ha)

/-- Receiving a packet (R161) is concatenation with a queue that holds only it. -/
theorem appendPacket_eq_concatQueues (queue : List SubSequence) (p : Packet) :
    appendPacket queue p = concatQueues queue [[p]] := rfl

theorem QueueInv.receive {queue : List SubSequence} (hq : QueueInv queue) {p : Packet} (hp : p.inRange = true) :
    QueueInv (appendPacket queue p) :=
  hq.concat (.singleton ⟨by simp, by simp, by simpa using hp⟩)

theorem sublist_dropLast {α : Type} {l m : List α} (hs : l.Sublist m) : l.dropLast.Sublist m.dropLast := by
  rw [← List.reverse_sublist, ← List.tail_reverse, ← List.tail_reverse]
  exact hs.reverse.tail

/-- Removing a SubSequence (R163): what is left in front was in front before. -/
theorem QueueInv.eraseIdx {queue : List SubSequence} (hq : QueueInv queue) (n : Nat) : QueueInv (queue.eraseIdx n) :=
  have hs := List.eraseIdx_sublist queue n
  ⟨fun sub hm => hq.framed sub ((sublist_dropLast hs).subset hm), fun sub hm => hq.subs sub (hs.subset hm)⟩

/-- Rebasing (R142) changes neither which packets are markers nor their ranges. -/
theorem QueueInv.rebase {queue : List SubSequence} (hq : QueueInv queue) (b : U32) :
    QueueInv (queue.map (List.map (Machine.rebase b))) := by
  refine ⟨?framed, ?subs⟩
  case framed =>
    rw [← List.map_dropLast]
    simpa only [List.forall_mem_map, isComplete_map_rebase] using hq.framed
  case subs =>
    refine List.forall_mem_map.mpr fun sub hs => ?_
    obtain ⟨inhabited, closedOnce, ranged⟩ := hq.subs sub hs
    refine ⟨by simpa using inhabited, ?_, by simpa using ranged⟩
    rw [← List.map_dropLast]
    simpa only [List.forall_mem_map, rebase_marker] using closedOnce

theorem QueueInv.extend {q other : Sequence} (hq : QueueInv q.queue) (ho : QueueInv other.queue) :
    QueueInv (extendSequence q other).queue :=
  hq.concat (ho.rebase q.tsSw)

theorem QueueInv.receiveWord {q : Sequence} (hq : QueueInv q.queue) (w : RawWord) :
    QueueInv (receiveWord q w).queue := by
  rw [Machine.receiveWord, absorbDecoded_eq]
  cases hd : (decodeWord w q.tsSw).1 with
  | none => exact hq
  | some p => exact hq.receive ((decodeWord_one w).ranged _ p hd)

/-- Decoding a batch word by word (R84). -/
theorem QueueInv.feed (ws : List RawWord) : ∀ {q : Sequence}, QueueInv q.queue → QueueInv (feed q ws).queue := by
  induction ws with
  | nil => exact id
  | cons w ws ih => exact fun hq => ih (hq.receiveWord w)

end Sys2Proof.Machine
end

section
/-! SUPPORT. The invariant of one Sequence under the lock bodies of the commands and of the reader agent. -/

namespace Sys2Proof.Machine

theorem Sequence.Inv.of_queueInv {q : Sequence} (queue : QueueInv q.queue) (free : q.lock = none)
    (batched : q.reader.phase ≠ .folding → q.reader.batch = []) (bounded : q.timeout.isPositive = true) :
    q.Inv where
  framed := queue.framed
  inhabited sub hs := (queue.subs sub hs).inhabited
  closedOnce sub hs := (queue.subs sub hs).closedOnce
  ranged sub hs := (queue.subs sub hs).ranged
  unlocked := free
  batched := batched
  bounded := bounded

/-- A good queue under a free lock, beside the reader's phase and batch and the timeout of a Sequence that has the
invariant. -/
theorem Sequence.Inv.of_queue {q q' : Sequence} (hq : q.Inv) (queue : QueueInv q'.queue) (free : q'.lock = none)
    (phase : q'.reader.phase = q.reader.phase) (batch : q'.reader.batch = q.reader.batch)
    (timeout : q'.timeout = q.timeout) : q'.Inv :=
  .of_queueInv queue free (by rw [phase, batch]; exact hq.batched) (timeout ▸ hq.bounded)

theorem Sequence.Inv.fresh {timeout : Seconds} (positive : timeout.isPositive = true) :
    (Sequence.fresh timeout).Inv :=
  .of_queueInv .nil rfl (fun _ => rfl) positive

theorem Sequence.Inv.consume {q : Sequence} (hq : q.Inv) : ({ q with consumed := true } : Sequence).Inv :=
  hq.of_queue hq.queueInv hq.unlocked rfl rfl rfl

theorem Sequence.Inv.extend {q other : Sequence} (hq : q.Inv) (ho : other.Inv) (c : Bool) :
    ({ extendSequence q other with consumed := c } : Sequence).Inv :=
  hq.of_queue (hq.queueInv.extend ho.queueInv) hq.unlocked rfl rfl rfl

/-- What a lock body that ran on handle `h` must leave for the invariant: the Sequence good once its lock is freed,
and a command that waits only on `h` with a reader active (R163). -/
structure OutcomeInv (h : Nat) (out : Sequence × Ending) : Prop where
  seq : ({ out.1 with lock := none } : Sequence).Inv
  waits : ∀ p, out.2 = .wait p → p.seq = h ∧ p.readerActive = true

theorem BodyEffect.outcomeInv {i : Instr} {port : Port} {h : Nat} {body : Sequence → Sequence × Ending}
    (effect : BodyEffect i port h body) {q : Sequence} (hq : q.Inv) (who : Option Agent) :
    OutcomeInv h (body { q with lock := who }) where
  seq := by
    refine hq.of_queue ?queue rfl (effect.phase _) (effect.batch _) (effect.timeout _)
    rcases effect.queue { q with lock := who } with same | ⟨p, hp, appended⟩ | ⟨n, -, -, -, removed⟩
    · rw [same]; exact hq.queueInv
    · rw [appended]; exact hq.queueInv.receive hp
    · rw [removed]; exact hq.queueInv.eraseIdx n
  waits p hw := (effect.waits _ p hw).2

/-- The check of a pending command (R163): it removes one SubSequence, or leaves the Sequence as it is. -/
theorem resolve_outcomeInv (expire : Bool) {p : Pending} (active : p.readerActive = true) {q : Sequence} (hq : q.Inv)
    (who : Option Agent) : OutcomeInv p.seq (resolve expire p { q with lock := who }) := by
  have same : ({ q with lock := none } : Sequence).Inv := hq.of_queue hq.queueInv rfl rfl rfl rfl
  rcases resolve_cases expire p { q with lock := who } with
    ⟨sub, -, -, taken⟩ | ⟨-, ⟨-, failed⟩ | ⟨-, -, expired⟩ | ⟨-, -, waiting⟩⟩
  · rw [taken]
    refine ⟨?_, nofun⟩
    cases p.kind with
    | pop => exact hq.of_queue (hq.queueInv.eraseIdx p.index) rfl rfl rfl rfl
    | read => exact same
  · rw [failed]; exact ⟨same, nofun⟩
  · rw [expired]; exact ⟨same, nofun⟩
  · rw [waiting]; exact ⟨same, by rintro _ ⟨⟩; exact ⟨rfl, active⟩⟩

/-- ISSUE (R171): the batch is empty in the phase Idle, and stays so. -/
theorem issueReadout_outcomeInv (h : Nat) {q : Sequence} (hq : q.Inv) (idle : q.reader.phase = .idle)
    (who : Option Agent) : OutcomeInv h (issueReadout { q with lock := who }, .quiet) where
  seq := .of_queueInv hq.queueInv rfl (fun _ => hq.batched (by rw [idle]; exact nofun)) hq.bounded
  waits := nofun

/-- RETURN (R171): the batch may hold words, for the phase is Folding. -/
theorem Sequence.Inv.returnReadout {q : Sequence} (hq : q.Inv) (answer : Readout) :
    (returnReadout answer q).Inv :=
  .of_queueInv hq.queueInv hq.unlocked (fun not_folding => absurd rfl not_folding) hq.bounded

/-- FOLD (R171): the batch, decoded into an empty queue, is concatenated; it is emptied as the agent goes Idle. -/
theorem foldBatch_outcomeInv (h : Nat) {q : Sequence} (hq : q.Inv) (who : Option Agent) :
    OutcomeInv h (foldBatch { q with lock := who }, .quiet) where
  seq :=
    have queue := hq.queueInv.extend (QueueInv.feed q.reader.batch (q := Sequence.fresh q.timeout) .nil)
    .of_queueInv queue rfl (fun _ => rfl) hq.bounded
  waits := nofun

end Sys2Proof.Machine
end

section
/-! SUPPORT. The invariant of the machine under the operations on the state and under every turn. -/

namespace Sys2Proof.Machine

variable {s t : State} {h : Nat}

/-- The invariant speaks of the Sequences and of the pending commands only. -/
theorem State.Inv.of_same (hs : s.Inv) (seqs : t.seqs = s.seqs)
    (pending : ∀ k, (t.caller k).pending = (s.caller k).pending) : t.Inv where
  sequences := by rw [seqs]; exact hs.sequences
  waiting k p hp := by rw [seqs]; exact hs.waiting k p (pending k ▸ hp)

theorem State.Inv.seqInv (hs : s.Inv) {q : Sequence} (hq : s.seqs[h]? = some q) : q.Inv :=
  hs.sequences q (List.mem_of_getElem? hq)

theorem State.Inv.reply (hs : s.Inv) (r : Reply) : (s.reply r).Inv :=
  hs.of_same rfl (reply_pending s r)

theorem State.Inv.putCounter (hs : s.Inv) (c : Nat) (v : U32) : (s.putCounter c v).Inv :=
  hs.of_same (putCounter_seqs s v c) (putCounter_pending s v c)

theorem State.Inv.putSeq (hs : s.Inv) (h : Nat) {q : Sequence} (hq : q.Inv) : (s.putSeq h q).Inv where
  sequences q' hm := (List.mem_or_eq_of_mem_set hm).elim (hs.sequences q') (fun eq => eq ▸ hq)
  waiting k p hp := by
    rw [putSeq_seqs, List.length_set]
    exact hs.waiting k p hp

theorem State.Inv.addSeq (hs : s.Inv) {q : Sequence} (hq : q.Inv) :
    ({ s with seqs := s.seqs ++ [q] } : State).Inv where
  sequences := List.forall_mem_append.mpr ⟨hs.sequences, by simpa using hq⟩
  waiting k p hp := by
    obtain ⟨named, active⟩ := hs.waiting k p hp
    exact ⟨by rw [List.length_append]; omega, active⟩

theorem State.Inv.setPending (hs : s.Inv) {o : Option Pending}
    (ho : ∀ p, o = some p → p.seq < s.seqs.length ∧ p.readerActive = true) : (s.setPending o).Inv where
  sequences := hs.sequences
  waiting k p hp := by
    rw [setPending_pending] at hp
    split at hp
    · exact ho p hp
    · exact hs.waiting k p hp

theorem State.Inv.conclude (hs : s.Inv) {e : Ending}
    (waits : ∀ p, e = .wait p → p.seq < s.seqs.length ∧ p.readerActive = true) : (s.conclude e).Inv := by
  cases e with
  | answer r => exact hs.reply r
  | wait p => exact hs.setPending fun p' hp => waits p' (by rw [Option.some.inj hp])
  | quiet => exact hs

/-- A lock body whose outcome is good on the Sequence it runs on keeps the invariant. -/
theorem State.Inv.locked {who : Agent} {body : Sequence → Sequence × Ending} (hs : s.Inv)
    (hb : ∀ q, s.seqs[h]? = some q → OutcomeInv h (body { q with lock := some who }))
    (hx : s.locked h who body = .next t) : t.Inv := by
  obtain ⟨q, hq, -, rfl⟩ := locked_next hx
  refine (hs.putSeq h (hb q hq).seq).conclude fun p hp => ?_
  obtain ⟨hseq, active⟩ := (hb q hq).waits p hp
  rw [putSeq_seqs, List.length_set, hseq]
  exact ⟨(List.getElem?_eq_some_iff.mp hq).1, active⟩

/-- Every instruction keeps the invariant. -/
theorem State.Inv.exec {i : Instr} (hs : s.Inv) (hx : exec i s = .next t) : t.Inv := by
  cases exec_next hx with
  | replied r eq => exact eq ▸ hs.reply r
  | decoded _ c v r eq => exact eq ▸ (hs.putCounter c v).reply r
  | ran h q body _ _ effect _ runs => exact hs.locked (fun _ hq => effect.outcomeInv (hs.seqInv hq) _) runs
  | extended h other q o _ live absorbed eq =>
    exact eq ▸ ((hs.putSeq other (hs.seqInv absorbed).consume).putSeq h
      ((hs.seqInv live.named).extend (hs.seqInv absorbed) _)).reply _
  | created x _ positive eq => exact eq ▸ (hs.addSeq (.fresh positive)).reply _

/-- A caller's turn: the check of its pending command, or its next item, or nothing. -/
theorem State.Inv.callerTurn {k : Nat} {expire : Bool} (hs : s.Inv) (hx : takeTurn (.caller k expire) s = .next t) :
    t.Inv := by
  have under : (s.underTurn k expire).Inv := hs.of_same rfl fun _ => rfl
  have issued (items : List Item) : ((s.underTurn k expire).setProgram k items).Inv :=
    under.of_same rfl fun j => setProgram_pending _ k j items
  cases hp : (s.caller k).pending with
  | some p =>
    simp only [takeTurn, State.fetch, State.callerTurn, hp] at hx
    have active := (hs.waiting k p hp).2
    have unpended : ((s.underTurn k expire).setPending none).Inv := under.setPending (by simp)
    exact unpended.locked (fun _ hq => resolve_outcomeInv expire active (hs.seqInv hq) _) hx
  | none =>
    match hi : (s.caller k).program with
    | [] =>
      rw [takeTurn_caller_nothing expire hp hi] at hx
      exact Host.Outcome.next.inj hx ▸ under
    | .word port w :: items =>
      rw [takeTurn_caller_word expire hp hi] at hx
      have through : ({ (s.underTurn k expire).setProgram k items with port := port } : State).Inv :=
        (issued items).of_same rfl fun _ => rfl
      exact through.exec hx
    | .command i :: items =>
      rw [takeTurn_caller_command expire hp hi] at hx
      exact (issued items).exec hx

/-- A reader's turn: no step, or ISSUE, RETURN or FOLD by its phase (R171). -/
theorem State.Inv.readerTurn {answer : Readout} (hs : s.Inv) (hx : s.readerTurn h answer = .next t) : t.Inv := by
  have unmoved (hx : Host.Outcome.next s = (.next t : Result)) : t.Inv := Host.Outcome.next.inj hx ▸ hs
  unfold State.readerTurn at hx
  cases hq : s.seqs[h]? with
  | none => exact unmoved (by simpa only [hq] using hx)
  | some q =>
    have at_h {q' : Sequence} (hq' : s.seqs[h]? = some q') : q' = q := Option.some.inj (hq'.symm.trans hq)
    cases phase : q.reader.phase with
    | idle =>
      simp only [hq, phase] at hx
      split at hx
      · exact hs.locked (fun q' hq' => issueReadout_outcomeInv h (hs.seqInv hq') (at_h hq' ▸ phase) _) hx
      · exact unmoved hx
    | reading =>
      simp only [hq, phase] at hx
      exact Host.Outcome.next.inj hx ▸ hs.putSeq h ((hs.seqInv hq).returnReadout answer)
    | folding =>
      simp only [hq, phase] at hx
      exact hs.locked (fun q' hq' => foldBatch_outcomeInv h (hs.seqInv hq') _) hx

theorem State.Inv.takeTurn {turn : Turn} (hs : s.Inv) (hx : takeTurn turn s = .next t) : t.Inv := by
  cases turn with
  | caller k expire => exact hs.callerTurn hx
  | reader h answer => exact hs.readerTurn hx

/-- Settles O50: every caller is idle at reset, and there is no Sequence to speak of. -/
theorem resetSatisfiesInvariant : Obligations.ResetSatisfiesInvariant := by
  have idle (k : Nat) : State.reset.caller k = Caller.idle := caller_idle_beyond _ k (Nat.zero_le k)
  have none_pending (k : Nat) : (State.reset.caller k).pending = none := by rw [idle]; rfl
  exact ⟨⟨nofun, fun k p hp => nomatch (none_pending k).symm.trans hp⟩, rfl, none_pending⟩

/-- Settles O51: a step is a turn taken in a state that differs only in the schedule, of which the invariant does not
speak. -/
theorem stepKeepsInvariant : Obligations.StepKeepsInvariant := by
  intro s s' hs hx
  cases hsch : s.schedule with
  | nil => exact Host.Outcome.next.inj ((step_of_no_turn hsch).symm.trans hx) ▸ hs
  | cons turn turns =>
    have scheduled : ({ s with schedule := turns } : State).Inv := hs.of_same rfl fun _ => rfl
    exact scheduled.takeTurn ((step_of_turn hsch).symm.trans hx)

end Sys2Proof.Machine
end

section
/-! SUPPORT. The frame of an instruction, over the Sequences and over the agents. -/

namespace Sys2Proof.Machine

variable {i : Instr} {s t : State} {h : Nat}

/-- R29: a Sequence an instruction does not name stays as it is. -/
theorem exec_seqs_unnamed (hx : exec i s = .next t) (hl : h < s.seqs.length) (unnamed : h ∉ handlesOf s.port i) :
    t.seqs[h]? = s.seqs[h]? := by
  cases exec_next hx with
  | replied r eq => rw [eq, reply_seqs]
  | decoded _ c v r eq => rw [eq, reply_seqs, putCounter_seqs]
  | ran h' q body _ here _ _ runs =>
    obtain ⟨q, -, -, rfl⟩ := locked_next runs
    have ne : h' ≠ h := by rintro rfl; simp [here] at unnamed
    rw [conclude_seqs, putSeq_seqs, List.getElem?_set_ne ne]
  | extended h' other q o is _ _ eq =>
    obtain ⟨ne, ne_other⟩ : h ≠ h' ∧ h ≠ other := by simpa [is, handlesOf] using unnamed
    rw [eq, reply_seqs, putSeq_seqs, List.getElem?_set_ne ne.symm, putSeq_seqs, List.getElem?_set_ne ne_other.symm]
  | created x _ _ eq => rw [eq, reply_seqs, List.getElem?_append_left hl]

/-- Settles O40: the frame over the unnamed Sequences, and what `EXTEND` writes to the one it absorbs. -/
theorem otherSequencesUntouched : Obligations.OtherSequencesUntouched := by
  refine ⟨fun i s t h hx hl unnamed => exec_seqs_unnamed hx hl unnamed, fun s t h other o hx ne ho => ?absorbed⟩
  case absorbed =>
    obtain ⟨q, o', -, ho', -, rfl⟩ := extend_next hx
    obtain rfl : o = o' := Option.some.inj (ho.symm.trans ho')
    rw [reply_seqs, putSeq_seqs, List.getElem?_set_ne ne, putSeq_seqs,
      List.getElem?_set_self (List.getElem?_eq_some_iff.mp ho).1]

/-- Settles O41, by the form of the next state. -/
theorem execKeepsOtherAgents : Obligations.ExecKeepsOtherAgents := by
  intro i s t hx
  cases exec_next hx with
  | replied r eq =>
    subst eq
    exact ⟨fun k hk => reply_caller_other _ k _ hk, by simp, rfl, rfl, rfl, rfl, le_rfl⟩
  | decoded _ c v r eq =>
    subst eq
    exact ⟨fun k hk => by simp [hk], by simp, by simp, by simp, by simp, by simp, by simp⟩
  | ran h q body _ _ _ _ runs =>
    obtain ⟨q, -, -, rfl⟩ := locked_next runs
    exact ⟨fun k hk => conclude_caller_other _ _ k hk, by simp, by simp, by simp, by simp, by simp, by simp⟩
  | extended h other q o _ _ _ eq =>
    subst eq
    exact ⟨fun k hk => reply_caller_other _ k _ hk, by simp, rfl, rfl, rfl, rfl, by simp⟩
  | created x _ _ eq =>
    subst eq
    exact ⟨fun k hk => reply_caller_other _ k _ hk, reply_program _ _ _, rfl, rfl, rfl, rfl, by simp⟩

/-- A command that names no Sequence and no counter, and creates no Sequence, only returns a result. -/
theorem exec_pure (names : handlesOf (.sequence 0) i = []) (no_decode : ∀ w c, i ≠ .decode w c)
    (no_create : ∀ x, i ≠ .newSequence x) (hx : exec i s = .next t) : ∃ r, t = s.reply r := by
  cases exec_next hx with
  | replied r eq => exact ⟨r, eq⟩
  | decoded word _ _ _ _ =>
    rcases word with word | ⟨w, c, is⟩
    · exact absurd names word
    · exact absurd is (no_decode w c)
  | ran _ _ _ word _ _ _ _ => exact absurd names word
  | extended h other _ _ is _ _ _ => simp [is, handlesOf] at names
  | created x is _ _ => exact absurd is (no_create x)

/-- Settles O42: `exec_pure`, read field by field of the issuer's record. -/
theorem pureCommandsOnlyReply : Obligations.PureCommandsOnlyReply := by
  intro i s t names no_decode no_create hx
  obtain ⟨r, rfl⟩ := exec_pure names no_decode no_create hx
  rw [reply_caller_self]
  exact ⟨rfl, rfl, rfl, r, rfl⟩

end Sys2Proof.Machine
end

section
/-! SUPPORT. What an instruction may do to one Sequence, from `sequence_next`: the reader and the packets. -/

namespace Sys2Proof.Machine

/-- Settles O46, by what a Sequence can become: only a lock body can write the flag, and it does by `START_READER` and
`STOP_READER` alone. -/
theorem commandsKeepReader : Obligations.CommandsKeepReader := by
  intro i s t h q q' hx hq hq'
  rcases sequence_next hx hq hq' with
    rfl | ⟨body, who, effect, -, rfl⟩ | ⟨other, o, c, -, -, rfl⟩ | rfl
  · exact ⟨fun ne => absurd rfl ne, rfl, rfl, rfl, id⟩
  · exact ⟨(effect.enabled _).resolve_left, effect.phase _, effect.batch _, effect.timeout _, fun _ => rfl⟩
  · exact ⟨fun ne => absurd rfl ne, rfl, rfl, rfl, id⟩
  · exact ⟨fun ne => absurd rfl ne, rfl, rfl, rfl, id⟩

/-- A lock body of an instruction other than `POP` of the Sequence leaves its packets at the front. -/
theorem BodyEffect.packets_prefix {i : Instr} {port : Port} {h : Nat} {body : Sequence → Sequence × Ending}
    (effect : BodyEffect i port h body) (no_pop : ∀ n x, i ≠ .pop h n x) (q : Sequence) :
    q.queue.flatten <+: (body q).1.queue.flatten := by
  rcases effect.queue q with same | ⟨p, -, appended⟩ | ⟨_, x, u, pop, -⟩
  · rw [same]
  · rw [appended, appendPacket_flatten]
    exact List.prefix_append _ _
  · exact absurd pop (no_pop x u)

theorem extendSequence_packets_prefix (q other : Sequence) :
    q.queue.flatten <+: (extendSequence q other).queue.flatten := by
  rw [extendSequence, concatQueues_flatten]
  exact List.prefix_append _ _

/-- Settles O48: appending a packet and concatenation put packets behind those that are there. -/
theorem packetsOnlyAppended : Obligations.PacketsOnlyAppended := by
  intro i s t h q q' hx hq hq' no_pop
  rcases sequence_next hx hq hq' with
    rfl | ⟨body, who, effect, -, rfl⟩ | ⟨other, o, c, -, -, rfl⟩ | rfl
  · exact List.prefix_rfl
  · exact effect.packets_prefix no_pop { q with lock := who }
  · exact extendSequence_packets_prefix q o
  · exact List.prefix_rfl

end Sys2Proof.Machine
end

section
/-! SUPPORT. Decoding against a shifted counter is decoding and rebasing (R142, R145), and a word stream decodes piece by
piece. -/

namespace Sys2Proof.Machine

/-- R142, R143: a word decoded against a counter that stands `b` higher gives the rebased packet and the shifted
counter. -/
theorem decodeWord_add (w : RawWord) (c b : U32) :
    decodeWord w (c + b) = ((decodeWord w c).1.map (rebase b), (decodeWord w c).2 + b) := by
  unfold decodeWord
  split
  · exact congrArg (Prod.mk none) (add_right_comm c b 1)
  · split
    · rfl
    · split <;> rfl

theorem decodeStream_map_rebase (b : U32) (ws : List RawWord) :
    ∀ c : U32, (decodeStream c ws).map (rebase b) = decodeStream (c + b) ws := by
  induction ws with
  | nil => exact fun _ => rfl
  | cons w ws ih =>
    intro c
    simp only [decodeStream, decodeWord_add, List.map_append, ih, Option.toList_map]

theorem counterAfter_add (b : U32) (ws : List RawWord) :
    ∀ c : U32, counterAfter (c + b) ws = counterAfter c ws + b := by
  induction ws with
  | nil => exact fun _ => rfl
  | cons w ws ih =>
    intro c
    simp only [counterAfter, decodeWord_add, ih]

theorem decodeStream_append (ws vs : List RawWord) :
    ∀ c : U32, decodeStream c (ws ++ vs) = decodeStream c ws ++ decodeStream (counterAfter c ws) vs := by
  induction ws with
  | nil => exact fun _ => rfl
  | cons w ws ih =>
    intro c
    simp only [List.cons_append, decodeStream, counterAfter, ih, List.append_assoc]

theorem counterAfter_append (ws vs : List RawWord) :
    ∀ c : U32, counterAfter c (ws ++ vs) = counterAfter (counterAfter c ws) vs := by
  induction ws with
  | nil => exact fun _ => rfl
  | cons w ws ih => exact fun c => ih (decodeWord w c).2

end Sys2Proof.Machine
end

section
/-! SUPPORT. Arrival order (R55): what receiving, feeding and folding words does to the packets and the counter of a
Sequence. -/

namespace Sys2Proof.Machine

/-- The words `ws` have arrived at `q` and left `q'`: their packets, decoded in order against the counter, stand behind
those that were there, and the counter has taken every overflow word (R55, R101). -/
structure Arrived (q : Sequence) (ws : List RawWord) (q' : Sequence) : Prop where
  packets : q'.queue.flatten = q.queue.flatten ++ decodeStream q.tsSw ws
  counter : q'.tsSw = counterAfter q.tsSw ws

variable {q q' q'' : Sequence} {ws vs : List RawWord}

theorem Arrived.nil (q : Sequence) : Arrived q [] q :=
  ⟨(List.append_nil _).symm, rfl⟩

/-- Words that arrive after others: the streams stand one behind the other. -/
theorem Arrived.trans (first : Arrived q ws q') (second : Arrived q' vs q'') : Arrived q (ws ++ vs) q'' where
  packets := by
    rw [second.packets, first.packets, first.counter, decodeStream_append, List.append_assoc]
  counter := by rw [second.counter, first.counter, counterAfter_append]

theorem receiveWord_arrived (q : Sequence) (w : RawWord) : Arrived q [w] (receiveWord q w) := by
  rw [receiveWord, absorbDecoded_eq]
  refine ⟨?packets, rfl⟩
  case packets =>
    cases hd : (decodeWord w q.tsSw).1 <;> simp [decodeStream, hd]

theorem feed_arrived (ws : List RawWord) : ∀ q : Sequence, Arrived q ws (feed q ws) := by
  induction ws with
  | nil => exact Arrived.nil
  | cons w ws ih => exact fun q => (receiveWord_arrived q w).trans (ih (receiveWord q w))

/-- R145, R168: extending by what arrived at an empty, zero-origin Sequence is the arrival of the same words. -/
theorem Arrived.extend {origin other : Sequence} (arrived : Arrived origin ws other)
    (empty : origin.queue = []) (zero : origin.tsSw = 0) (q : Sequence) : Arrived q ws (extendSequence q other) where
  packets := by
    have packets := arrived.packets
    rw [empty, zero, List.flatten_nil, List.nil_append] at packets
    rw [extendSequence, concatQueues_flatten, ← List.map_flatten, packets, decodeStream_map_rebase, zero_add]
  counter :=
    calc q.tsSw + other.tsSw
      _ = counterAfter 0 ws + q.tsSw := by rw [arrived.counter, zero, add_comm]
      _ = counterAfter q.tsSw ws := by rw [← counterAfter_add, zero_add]

/-- FOLD (R171): the words of the reader's batch arrive. -/
theorem foldBatch_arrived (q : Sequence) (batch : List RawWord) :
    Arrived q batch (foldBatch { q with reader := { q.reader with batch := batch } }) :=
  have extended := (feed_arrived batch (Sequence.fresh q.timeout)).extend rfl rfl q
  ⟨extended.packets, extended.counter⟩

theorem foldBatches_arrived (batches : List (List RawWord)) :
    ∀ q : Sequence, Arrived q batches.flatten (foldBatches q batches) := by
  induction batches with
  | nil => exact Arrived.nil
  | cons batch batches ih => exact fun q => (foldBatch_arrived q batch).trans (ih _)

/-- Settles O39: the batches arrive one after another, so their words arrive as one stream. -/
theorem arrivalOrderPreserved : Obligations.ArrivalOrderPreserved :=
  fun q batches =>
    have arrived := foldBatches_arrived batches q
    ⟨arrived.packets, arrived.counter⟩

end Sys2Proof.Machine
end

section
/-! SUPPORT. The four word classes (R71): what the decoder and the Word Decoder give in each, and how a word is put
together again from what decoding keeps of it (R78). -/

namespace Sys2Proof.Machine

/-- The three control values that are not ChipData's (R71). -/
def markedControls : List (BitVec 4) := [0xA#4, 0xC#4, 0xF#4]

/-- R71: a control value has one of four classes. -/
theorem control_class (c : BitVec 4) : c = 0xF#4 ∨ c = 0xA#4 ∨ c = 0xC#4 ∨ c ∉ markedControls := by
  revert c
  decide

section Classes

variable {w : RawWord}

theorem decode_of_ovf (hw : ctl w = 0xF#4) : decode w = .ovf := by simp [decode, hw]

theorem decode_of_tp (hw : ctl w = 0xA#4) : decode w = .tp (tpTs w) := by simp [decode, hw]

theorem decode_of_cw (hw : ctl w = 0xC#4) : decode w = .cw (cwMessage w) (cwPayload w) := by simp [decode, hw]

theorem decode_of_chip (hw : ctl w ∉ markedControls) : decode w = chipInstr (ctl w) (chipFields w) := by
  simp_all [decode, markedControls]

theorem decodeWord_of_ovf (hw : ctl w = 0xF#4) : decodeWord w = decodeOvf := by
  funext c
  simp [decodeWord, hw]

theorem decodeWord_of_tp (hw : ctl w = 0xA#4) : decodeWord w = decodeTp (tpTs w) := by
  funext c
  simp [decodeWord, hw]

theorem decodeWord_of_cw (hw : ctl w = 0xC#4) : decodeWord w = decodeCw (cwMessage w) (cwPayload w) := by
  funext c
  simp [decodeWord, hw]

theorem decodeWord_of_chip (hw : ctl w ∉ markedControls) : decodeWord w = decodeChip (chipFields w) := by
  funext c
  simp_all [decodeWord, markedControls]

end Classes

/-- The mask of every table row leaves the control field alone. -/
theorem and_controlMask (w : RawWord) : w &&& 0xF000000000000000#64 = (ctl w).setWidth 64 <<< 60 := by
  ext i hi
  simp only [ctl]
  interval_cases i <;> simp

theorem and_tpMask (w : RawWord) :
    w &&& 0xF000000000FFFFFF#64 = (ctl w).setWidth 64 <<< 60 ||| (tpTs w).setWidth 64 := by
  ext i hi
  simp only [ctl, tpTs]
  interval_cases i <;> simp

theorem and_cwMask (w : RawWord) :
    w &&& 0xF0FFFFFFFFFFFFFF#64
      = (ctl w).setWidth 64 <<< 60 ||| (cwMessage w).setWidth 64 <<< 8 ||| (cwPayload w).setWidth 64 := by
  ext i hi
  simp only [ctl, cwMessage, cwPayload]
  interval_cases i <;> simp

/-- A field of a word, or-ed onto the bits below it, gives the bits up to the field's end. -/
theorem field_or_below (w : RawWord) (start len : Nat) :
    (w.extractLsb' start len).setWidth 64 <<< start ||| (w.extractLsb' 0 start).setWidth 64
      = (w.extractLsb' 0 (start + len)).setWidth 64 := by
  ext i hi
  simp only [BitVec.getElem_or, BitVec.getElem_shiftLeft, BitVec.getElem_setWidth, BitVec.getLsbD_extractLsb', zero_add]
  by_cases below : i < start
  · simp [below, show i < start + len by omega]
  · simp [below, show start + (i - start) = i by omega, show i - start < len ↔ i < start + len by omega]

/-- A ChipData word has no don't-care bits (R78): its control value and fields, one above the other, are all of it. -/
theorem chipWord_ctl_chipFields (w : RawWord) : chipWord (ctl w) (chipFields w) = w := by
  have bottom : BitVec.ofBool (w.getLsbD 0) = w.extractLsb' 0 1 := by
    ext i hi
    simp [show i = 0 by omega]
  simp only [chipWord, ctl, chipFields, bottom, BitVec.or_assoc, field_or_below, Nat.reduceAdd]
  simp

end Sys2Proof.Machine
end

section
/-! SUPPORT. Don't-care bits (R78): clearing them gives the word of the decoded instruction, which decodes as the word
itself does. -/

namespace Sys2Proof.Machine

section Classes

variable {w : RawWord}

theorem clearDontCare_of_ovf (hw : ctl w = 0xF#4) : clearDontCare w = ovfWord := by
  rw [clearDontCare, if_pos hw, and_controlMask, hw]
  rfl

theorem clearDontCare_of_tp (hw : ctl w = 0xA#4) : clearDontCare w = tpWord (tpTs w) := by
  rw [clearDontCare, if_neg (by simp [hw]), if_pos hw, and_tpMask, hw]
  rfl

theorem clearDontCare_of_cw (hw : ctl w = 0xC#4) : clearDontCare w = cwWord (cwMessage w) (cwPayload w) := by
  rw [clearDontCare, if_neg (by simp [hw]), if_neg (by simp [hw]), if_pos hw, and_cwMask, hw]
  rfl

theorem clearDontCare_of_chip (hw : ctl w ∉ markedControls) : clearDontCare w = w := by
  simp_all [clearDontCare, markedControls]

end Classes

theorem ctl_clearDontCare (w : RawWord) : ctl (clearDontCare w) = ctl w := by
  obtain hw | hw | hw | hw := control_class (ctl w)
  · rw [clearDontCare_of_ovf hw, ctl_ovfWord, hw]
  · rw [clearDontCare_of_tp hw, ctl_tpWord, hw]
  · rw [clearDontCare_of_cw hw, ctl_cwWord, hw]
  · rw [clearDontCare_of_chip hw]

theorem decode_clearDontCare (w : RawWord) : decode (clearDontCare w) = decode w := by
  have same := ctl_clearDontCare w
  obtain hw | hw | hw | hw := control_class (ctl w)
  · rw [decode_of_ovf (same.trans hw), decode_of_ovf hw]
  · rw [decode_of_tp (same.trans hw), decode_of_tp hw, clearDontCare_of_tp hw, tpTs_tpWord]
  · rw [decode_of_cw (same.trans hw), decode_of_cw hw, clearDontCare_of_cw hw, cwMessage_cwWord, cwPayload_cwWord]
  · rw [clearDontCare_of_chip hw]

theorem decodeWord_clearDontCare (w : RawWord) : decodeWord (clearDontCare w) = decodeWord w := by
  have same := ctl_clearDontCare w
  obtain hw | hw | hw | hw := control_class (ctl w)
  · rw [decodeWord_of_ovf (same.trans hw), decodeWord_of_ovf hw]
  · rw [decodeWord_of_tp (same.trans hw), decodeWord_of_tp hw, clearDontCare_of_tp hw, tpTs_tpWord]
  · rw [decodeWord_of_cw (same.trans hw), decodeWord_of_cw hw, clearDontCare_of_cw hw, cwMessage_cwWord,
      cwPayload_cwWord]
  · rw [clearDontCare_of_chip hw]

/-- R71: the thirteen ChipData rows, each with its own control value. -/
theorem encode_chipInstr {c : BitVec 4} (hc : c ∉ markedControls) (f : ChipFields) :
    encode (chipInstr c f) = some (chipWord c f) := by
  have rows : ∀ c : BitVec 4, c ∉ markedControls →
      c ∈ [0x0#4, 0x1#4, 0x2#4, 0x3#4, 0x4#4, 0x5#4, 0x6#4, 0x7#4, 0x8#4, 0x9#4, 0xB#4, 0xD#4, 0xE#4] := by decide
  have row := rows c hc
  fin_cases row
  all_goals rfl

theorem encode_decode (w : RawWord) : encode (decode w) = some (clearDontCare w) := by
  obtain hw | hw | hw | hw := control_class (ctl w)
  · rw [decode_of_ovf hw, clearDontCare_of_ovf hw, encode]
  · rw [decode_of_tp hw, clearDontCare_of_tp hw, encode]
  · rw [decode_of_cw hw, clearDontCare_of_cw hw, encode]
  · rw [decode_of_chip hw, clearDontCare_of_chip hw, encode_chipInstr hw, chipWord_ctl_chipFields]

theorem decode_eq_iff (w v : RawWord) : decode w = decode v ↔ clearDontCare w = clearDontCare v := by
  constructor
  · intro same
    have words : encode (decode w) = encode (decode v) := congrArg encode same
    rwa [encode_decode, encode_decode, Option.some.injEq] at words
  · intro same
    rw [← decode_clearDontCare w, same, decode_clearDontCare]

/-- Settles O4: a decoded word encodes to the word cleared, and clearing changes neither what the decoder nor what the
Word Decoder gives. -/
theorem dontCareBitsExactly : Obligations.DontCareBitsExactly := by
  refine ⟨encode_decode, decode_eq_iff, ?results⟩
  case results =>
    intro w v c same
    rw [← decodeWord_clearDontCare w, same, decodeWord_clearDontCare]

end Sys2Proof.Machine
end

section
/-! SUPPORT. The rows of the opcode table (R71): a word belongs to the rows of its control value, and the word of an
instruction to that instruction's row alone. -/

namespace Sys2Proof.Machine

/-- The mnemonics of the rows of a control value. -/
def rowMnemonics (c : BitVec 4) : List String :=
  (opcodeTable.filter fun r => decide (c.setWidth 64 <<< 60 = r.matchBits)).map OpcodeRow.mnemonic

theorem mask_of_mem_opcodeTable : ∀ r ∈ opcodeTable, r.mask = 0xF000000000000000#64 := by decide

theorem mnemonics_of_fitting_rows (w : RawWord) :
    (opcodeTable.filter (fun r => r.fits w)).map (fun r => r.mnemonic) = rowMnemonics (ctl w) := by
  refine congrArg (List.map OpcodeRow.mnemonic) (List.filter_congr fun r hr => ?_)
  rw [OpcodeRow.fits, mask_of_mem_opcodeTable r hr, and_controlMask]

theorem rowMnemonics_of_encode {i : Instr} {w : RawWord} (hw : encode i = some w) :
    ∃ m, rowMnemonics (ctl w) = [m] ∧ i.wordMnemonic = some m := by
  cases i <;> cases hw
  all_goals
    refine ⟨_, ?_, rfl⟩
    simp only [ctl_chipWord, ctl_tpWord, ctl_cwWord, ctl_ovfWord]
    decide

/-- Settles O2: clearing the don't-care bits of a word leaves its rows, and gives the word of the instruction it decodes
to, which has one row. -/
theorem everyWordHasOneTableRow : Obligations.EveryWordHasOneTableRow := by
  intro w
  obtain ⟨m, rows, mnemonic⟩ := rowMnemonics_of_encode (encode_decode w)
  rw [ctl_clearDontCare] at rows
  exact ⟨m, (mnemonics_of_fitting_rows w).trans rows, mnemonic⟩

end Sys2Proof.Machine
end

section
/-! SUPPORT. The control value of a ChipData word (R79): no field of the packet reads it. -/

namespace Sys2Proof.Machine

/-- R72: the eight fields of a ChipData word stand in its bits 59:0. -/
theorem chipFields_low (w : RawWord) : chipFields ((w.extractLsb' 0 60).setWidth 64) = chipFields w := by
  have field (start len : Nat) (hle : start + len ≤ 60) :
      ((w.extractLsb' 0 60).setWidth 64).extractLsb' start len = w.extractLsb' start len := by
    ext i hi
    simp [show start + i < 60 by omega, show start + i < 64 by omega]
  simp [chipFields, field]

/-- Settles O5: both words decode to the packet of their fields, which stand in the bits the words agree in. -/
theorem chipControlNotRecorded : Obligations.ChipControlNotRecorded := by
  intro w v c hw hv same
  rw [decodeWord_of_chip hw, decodeWord_of_chip hv, ← chipFields_low w, same, chipFields_low]

end Sys2Proof.Machine
end

section
/-! SUPPORT. The canonical encoder (R81): its words from the fields at the packet's own widths, and its refusals. -/

namespace Sys2Proof.Machine

/-- A value below `2 ^ k` passes a field of `k` bits unchanged. -/
theorem setWidth_narrow {n k : Nat} {x : BitVec n} (hx : x.toNat < 2 ^ k) (m : Nat) :
    (x.setWidth k).setWidth m = x.setWidth m := by
  apply BitVec.eq_of_toNat_eq
  simp [Nat.mod_eq_of_lt hx]

theorem encodePacket_out_of_range {p : Packet} (hp : p.inRange = false) : encodePacket p = none := by
  simp [encodePacket, hp]

theorem encodePacket_no_payload {m : CustomWord} (hm : m.payload = none) : encodePacket (.customWord m) = none := by
  simp [encodePacket, hm]

theorem encodePacket_testPulse {q : TestPulse} (hq : q.inRange = true) :
    encodePacket (.testPulse q) = some ((0xA#64 <<< 60) ||| q.ts.setWidth 64) := by
  have ts : q.ts.toNat < 2 ^ 24 := by simpa [TestPulse.inRange] using hq
  simp only [encodePacket, Packet.inRange, hq, if_true, tpWord, setWidth_narrow ts]

theorem encodePacket_customWord {m : CustomWord} {x : U8} (hm : m.inRange = true) (hx : m.payload = some x) :
    encodePacket (.customWord m) = some ((0xC#64 <<< 60) ||| (m.message <<< 8) ||| x.setWidth 64) := by
  have message : m.message.toNat < 2 ^ 48 := by simpa [CustomWord.inRange] using hm
  simp only [encodePacket, Packet.inRange, hm, if_true, hx, Option.map_some, cwWord, setWidth_narrow message,
    BitVec.setWidth_eq]

theorem encodePacket_chipData {q : ChipData} (hq : q.inRange = true) :
    encodePacket (.chipData q) = some
      ((q.ser.setWidth 64 <<< 56) ||| (q.tsFpga.setWidth 64 <<< 32) ||| (q.ts.setWidth 64 <<< 24)
        ||| (q.sec.setWidth 64 <<< 20) ||| (q.col.setWidth 64 <<< 16) ||| (q.corepr.setWidth 64 <<< 9)
        ||| (q.hitmap.setWidth 64 <<< 1) ||| (if q.bottom then 1#64 else 0#64)) := by
  obtain ⟨⟨⟨⟨corepr, col⟩, sec⟩, tsFpga⟩, ser⟩ :
      (((q.corepr.toNat < 2 ^ 7 ∧ q.col.toNat < 2 ^ 4) ∧ q.sec.toNat < 2 ^ 4) ∧ q.tsFpga.toNat < 2 ^ 24)
        ∧ q.ser.toNat < 2 ^ 4 := by simpa [ChipData.inRange] using hq
  have bottom : (BitVec.ofBool q.bottom).setWidth 64 = if q.bottom then 1#64 else 0#64 := by
    cases q.bottom <;> rfl
  have control : (0x0#4).setWidth 64 <<< 60 = 0#64 := rfl
  simp only [encodePacket, Packet.inRange, hq, if_true, chipWord, ChipData.wordFields, setWidth_narrow corepr,
    setWidth_narrow col, setWidth_narrow sec, setWidth_narrow tsFpga, setWidth_narrow ser, bottom, control,
    BitVec.zero_or]

/-- Settles O7: a field within its range passes its width in the word unchanged, and the encoder refuses the rest. -/
theorem canonicalEncoderFormulas : Obligations.CanonicalEncoderFormulas :=
  ⟨fun _ => encodePacket_chipData, fun _ => encodePacket_testPulse, fun _ _ => encodePacket_customWord, rfl,
    fun _ => encodePacket_no_payload, fun _ => encodePacket_out_of_range⟩

end Sys2Proof.Machine
end

section
/-! SUPPORT. The canonical encoding and the Word Decoder undo each other (R107), class by class. -/

namespace Sys2Proof.Machine

section Packets

variable {p : Packet} {w : RawWord} {c : U32}

/-! ### From a packet to its word and back -/

theorem chipPacket_wordFields {q : ChipData} (hq : q.inRange = true) (c : U32) :
    chipPacket q.wordFields c = { q with tsSw := c, tsExt := extendTs q.ts q.tsFpga c } := by
  obtain ⟨⟨⟨⟨corepr, col⟩, sec⟩, tsFpga⟩, ser⟩ :
      (((q.corepr.toNat < 2 ^ 7 ∧ q.col.toNat < 2 ^ 4) ∧ q.sec.toNat < 2 ^ 4) ∧ q.tsFpga.toNat < 2 ^ 24)
        ∧ q.ser.toNat < 2 ^ 4 := by simpa [ChipData.inRange] using hq
  simp only [chipPacket, ChipData.wordFields, setWidth_narrow corepr, setWidth_narrow col, setWidth_narrow sec,
    setWidth_narrow tsFpga, setWidth_narrow ser, BitVec.setWidth_eq]

@[simp] theorem wordFields_chipPacket (f : ChipFields) (c : U32) : (chipPacket f c).wordFields = f := by
  simp [ChipData.wordFields, chipPacket]

theorem decodeWord_chipWord {k : BitVec 4} (hk : k ∉ markedControls) (f : ChipFields) :
    decodeWord (chipWord k f) = decodeChip f := by
  rw [decodeWord_of_chip (by rwa [ctl_chipWord]), chipFields_chipWord]

theorem decodeWord_tpWord (ts : BitVec 24) : decodeWord (tpWord ts) = decodeTp ts := by
  rw [decodeWord_of_tp (ctl_tpWord ts), tpTs_tpWord]

theorem decodeWord_cwWord (m : BitVec 48) (x : U8) : decodeWord (cwWord m x) = decodeCw m x := by
  rw [decodeWord_of_cw (ctl_cwWord m x), cwMessage_cwWord, cwPayload_cwWord]

theorem decodeWord_ovfWord : decodeWord ovfWord = decodeOvf :=
  decodeWord_of_ovf ctl_ovfWord

theorem chipData_roundTrip {q : ChipData} (hq : q.inRange = true) (c : U32) :
    ∃ w, encodePacket (.chipData q) = some w
      ∧ decodeWord w c = (some (.chipData { q with tsSw := c, tsExt := extendTs q.ts q.tsFpga c }), c) := by
  refine ⟨chipWord 0x0#4 q.wordFields, by simp [encodePacket, Packet.inRange, hq], ?_⟩
  rw [decodeWord_chipWord (by decide), decodeChip, chipPacket_wordFields hq]

theorem testPulse_roundTrip {q : TestPulse} (hq : q.inRange = true) (c : U32) :
    ∃ w, encodePacket (.testPulse q) = some w
      ∧ decodeWord w c = (some (.testPulse { q with tsSw := c, tsExt := q.ts }), c) := by
  have ts : q.ts.toNat < 2 ^ 24 := by simpa [TestPulse.inRange] using hq
  refine ⟨tpWord (q.ts.setWidth 24), by simp [encodePacket, Packet.inRange, hq], ?_⟩
  rw [decodeWord_tpWord, decodeTp, setWidth_narrow ts, BitVec.setWidth_eq]
  rfl

theorem customWord_roundTrip {m : CustomWord} {x : U8} (hm : m.inRange = true) (hx : m.payload = some x) (c : U32) :
    ∃ w, encodePacket (.customWord m) = some w ∧ decodeWord w c = (some (.customWord m), c) := by
  have message : m.message.toNat < 2 ^ 48 := by simpa [CustomWord.inRange] using hm
  refine ⟨cwWord (m.message.setWidth 48) x, by simp [encodePacket, Packet.inRange, hm, hx], ?_⟩
  rw [decodeWord_cwWord, decodeCw, setWidth_narrow message, BitVec.setWidth_eq, ← hx]

/-! ### From a word to its packet and back -/

theorem encodePacket_of_decodeChip {f : ChipFields} (hp : (decodeChip f c).1 = some p) :
    encodePacket p = some (chipWord 0x0#4 f) := by
  have ranged := (decodeChip_one f).ranged c p hp
  cases hp
  simp [encodePacket, ranged]

theorem encodePacket_of_decodeTp {ts : BitVec 24} (hp : (decodeTp ts c).1 = some p) :
    encodePacket p = some (tpWord ts) := by
  have ranged := (decodeTp_one ts).ranged c p hp
  cases hp
  simp [encodePacket, ranged]

theorem encodePacket_of_decodeCw {m : BitVec 48} {x : U8} (hp : (decodeCw m x c).1 = some p) :
    encodePacket p = some (cwWord m x) := by
  have ranged := (decodeCw_one m x).ranged c p hp
  cases hp
  simp [encodePacket, ranged]

theorem chipWord_zero_chipFields (w : RawWord) : chipWord 0x0#4 (chipFields w) = w &&& 0x0FFFFFFFFFFFFFFF#64 := by
  have low : w &&& 0x0FFFFFFFFFFFFFFF#64 = (w.extractLsb' 0 60).setWidth 64 := by
    ext i hi
    interval_cases i <;> simp
  have control : ctl ((w.extractLsb' 0 60).setWidth 64) = 0x0#4 := by
    ext i hi
    simp [ctl]
  rw [low, ← chipWord_ctl_chipFields ((w.extractLsb' 0 60).setWidth 64), control, chipFields_low]

theorem tpWord_tpTs (hw : ctl w = 0xA#4) : tpWord (tpTs w) = w &&& 0xF000000000FFFFFF#64 := by
  rw [and_tpMask, hw]
  rfl

theorem cwWord_cwMessage_cwPayload (hw : ctl w = 0xC#4) :
    cwWord (cwMessage w) (cwPayload w) = w &&& 0xF0FFFFFFFFFFFFFF#64 := by
  rw [and_cwMask, hw]
  rfl

end Packets

/-- Settles O6: the encoder and the decoder of a class undo each other on the fields, a field within its range passes
its width in the word unchanged, and the fields of a word together are the word under its class's mask. -/
theorem canonicalRoundTrip : Obligations.CanonicalRoundTrip := by
  refine ⟨fun _ c hq => chipData_roundTrip hq c, fun _ c hq => testPulse_roundTrip hq c,
    fun _ _ c hm hx => customWord_roundTrip hm hx c, congrFun decodeWord_ovfWord, ?encode⟩
  case encode =>
    intro w c p hp
    obtain hw | hw | hw | hw := control_class (ctl w)
    · rw [decodeWord_of_ovf hw] at hp
      cases hp
    · rw [decodeWord_of_tp hw] at hp
      rw [encodePacket_of_decodeTp hp, tpWord_tpTs hw]
      cases hp
      rfl
    · rw [decodeWord_of_cw hw] at hp
      rw [encodePacket_of_decodeCw hp, cwWord_cwMessage_cwPayload hw]
      cases hp
      rfl
    · rw [decodeWord_of_chip hw] at hp
      rw [encodePacket_of_decodeChip hp, chipWord_zero_chipFields]
      cases hp
      rfl

end Sys2Proof.Machine
end

section
/-! SUPPORT. The fields of a word in the source's byte expressions (R50, R100-R104): a byte, a part of a byte, and
neighbouring parts put together are fields of the word. -/

namespace Sys2Proof.Machine

variable (w : RawWord)

/-! ### Fields by shift, mask and or -/

theorem shift_and_mask (start len : Nat) :
    (w >>> start) &&& BitVec.ofNat 64 (2 ^ len - 1) = (w.extractLsb' start len).setWidth 64 := by
  ext i hi
  simp [hi, ← BitVec.getLsbD_eq_getElem, BitVec.getLsbD_ofNat, Nat.testBit_two_pow_sub_one, Bool.and_comm]

/-- A part of byte `i`. -/
theorem byte_shift_and_mask (i start len : Nat) (inside : start + len ≤ 8) :
    ((byte w i).setWidth 64 >>> start) &&& BitVec.ofNat 64 (2 ^ len - 1)
      = (w.extractLsb' (8 * i + start) len).setWidth 64 := by
  rw [shift_and_mask]
  refine congrArg (BitVec.setWidth 64) ?_
  ext j hj
  simp [byte, show start + j < 8 by omega, show start + j < 64 by omega, Nat.add_assoc]

theorem byte_and_mask (i len : Nat) (inside : len ≤ 8) :
    (byte w i).setWidth 64 &&& BitVec.ofNat 64 (2 ^ len - 1) = (w.extractLsb' (8 * i) len).setWidth 64 := by
  simpa only [BitVec.ushiftRight_zero, Nat.zero_add, Nat.add_zero, inside, forall_const]
    using byte_shift_and_mask w i 0 len

/-- Two neighbouring fields. -/
theorem field_or_field {top more start len : Nat} (above : top = start + len) :
    (w.extractLsb' top more).setWidth 64 <<< len ||| (w.extractLsb' start len).setWidth 64
      = (w.extractLsb' start (len + more)).setWidth 64 := by
  ext j hj
  simp only [above, BitVec.getElem_or, BitVec.getElem_shiftLeft, BitVec.getElem_setWidth, BitVec.getLsbD_extractLsb']
  by_cases below : j < len
  · simp [below, show j < len + more by omega]
  · simp [below, show start + len + (j - len) = start + j by omega, show j - len < more ↔ j < len + more by omega]

/-- Three neighbouring bytes. -/
theorem three_bytes (i : Nat) :
    (byte w (i + 2)).setWidth 64 <<< 16 ||| (byte w (i + 1)).setWidth 64 <<< 8 ||| (byte w i).setWidth 64
      = (w.extractLsb' (8 * i) 24).setWidth 64 := by
  rw [BitVec.or_assoc]
  exact (congrArg _ (field_or_field w rfl)).trans (field_or_field w rfl)

/-! ### The fields of each class -/

theorem shifted_byte (i : Nat) : (w >>> (8 * i)) &&& 0xFF#64 = (byte w i).setWidth 64 :=
  shift_and_mask w (8 * i) 8

theorem tpTs_bytes : (byte w 2).setWidth 64 <<< 16 ||| (byte w 1).setWidth 64 <<< 8 ||| (byte w 0).setWidth 64
    = (tpTs w).setWidth 64 :=
  three_bytes w 0

theorem cwMessage_bytes :
    (byte w 6).setWidth 64 <<< 40 ||| (byte w 5).setWidth 64 <<< 32 ||| (byte w 4).setWidth 64 <<< 24
        ||| (byte w 3).setWidth 64 <<< 16 ||| (byte w 2).setWidth 64 <<< 8 ||| (byte w 1).setWidth 64
      = (cwMessage w).setWidth 64 := by
  have byte_over (i len : Nat) (above : 8 * i = 8 + len) := field_or_field w (more := 8) above
  simp only [BitVec.or_assoc]
  rw [show byte w 1 = w.extractLsb' 8 8 from rfl]
  simp only [byte, byte_over 2 8 rfl, byte_over 3 16 rfl, byte_over 4 24 rfl, byte_over 5 32 rfl, byte_over 6 40 rfl,
    cwMessage]

theorem cwPayload_byte : byte w 0 = cwPayload w := rfl

theorem bottom_byte_part : decide ((byte w 0).setWidth 64 &&& 1#64 = 1#64) = (chipFields w).bottom := by
  rw [BitVec.and_one_eq_setWidth_ofBool_getLsbD]
  have first : (BitVec.setWidth 64 (byte w 0)).getLsbD 0 = w.getLsbD 0 := by simp [byte]
  rw [first, chipFields]
  cases w.getLsbD 0 <;> rfl

theorem hitmap_byte_parts :
    (((byte w 1).setWidth 64 &&& 1#64) <<< 7) ||| (((byte w 0).setWidth 64 >>> 1) &&& 0x7F#64)
      = (chipFields w).hitmap.setWidth 64 := by
  have upper : (byte w 1).setWidth 64 &&& 1#64 = (w.extractLsb' 8 1).setWidth 64 := byte_and_mask w 1 1 (by decide)
  have lower : ((byte w 0).setWidth 64 >>> 1) &&& 0x7F#64 = (w.extractLsb' 1 7).setWidth 64 :=
    byte_shift_and_mask w 0 1 7 (by decide)
  rw [upper, lower]
  exact field_or_field w rfl

theorem corepr_byte_part : ((byte w 1).setWidth 64 >>> 1) &&& 0x7F#64 = (chipFields w).corepr.setWidth 64 :=
  byte_shift_and_mask w 1 1 7 (by decide)

theorem col_byte_part : (byte w 2).setWidth 64 &&& 0xF#64 = (chipFields w).col.setWidth 64 :=
  byte_and_mask w 2 4 (by decide)

theorem sec_byte_part : ((byte w 2).setWidth 64 >>> 4) &&& 0xF#64 = (chipFields w).sec.setWidth 64 :=
  byte_shift_and_mask w 2 4 4 (by decide)

theorem ts_byte : byte w 3 = (chipFields w).ts := rfl

theorem tsFpga_bytes : (byte w 6).setWidth 64 <<< 16 ||| (byte w 5).setWidth 64 <<< 8 ||| (byte w 4).setWidth 64
    = (chipFields w).tsFpga.setWidth 64 :=
  three_bytes w 4

theorem ser_byte_part : (byte w 7).setWidth 64 &&& 0xF#64 = (chipFields w).ser.setWidth 64 :=
  byte_and_mask w 7 4 (by decide)

/-- Settles O8: the tests on the shifted word are those of the control field, and the byte expressions of a class are
the fields its decoder reads. -/
theorem decodeFollowsByteExpressions : Obligations.DecodeFollowsByteExpressions := by
  intro w c b
  have bytes (i : Nat) : b i = (byte w i).setWidth 64 := shifted_byte w i
  refine if_congr (ctl_eq_iff w 0xF#4) rfl (if_congr (ctl_eq_iff w 0xA#4) ?tp (if_congr (ctl_eq_iff w 0xC#4) ?cw ?chip))
  case tp =>
    simp only [bytes, tpTs_bytes, BitVec.setWidth_setWidth_of_le, Nat.reduceLeDiff]
    rfl
  case cw =>
    simp only [bytes, cwMessage_bytes, cwPayload_byte, BitVec.setWidth_setWidth_of_le, Nat.reduceLeDiff,
      BitVec.setWidth_eq]
    rfl
  case chip =>
    simp only [bytes, bottom_byte_part, hitmap_byte_parts, corepr_byte_part, col_byte_part, sec_byte_part,
      ts_byte, tsFpga_bytes, ser_byte_part, BitVec.setWidth_setWidth_of_le, Nat.reduceLeDiff, BitVec.setWidth_eq]
    rfl

end Sys2Proof.Machine
end

section
/-! SUPPORT. A word at its port (R100, R162): what meeting a caller's counter and a live Sequence does to the state, which
word instructions meet it, and the commands that hold a word. -/

namespace Sys2Proof.Machine

section Port

variable {s : State} {dec : U32 → Decoded}

/-- R162: a word meets a live Sequence's counter. -/
theorem present_sequence {h : Nat} {q : Sequence} (live : s.HasLive h q) :
    s.present (.sequence h) dec = .next ((s.putSeq h (absorbDecoded q (dec q.tsSw))).reply .done) := by
  rw [State.present, commandOn_live live]
  simp only [absorbDecoded_eq, live.free]
  rfl

section Packets

variable {packet : U32 → Packet} (gives : ∀ n, dec n = (some (packet n), n))

include gives

/-- A word that gives a packet and keeps the counter, at a caller's counter: the packet is returned. -/
theorem present_counter_packet {c : Nat} (port : s.port = .counter c) :
    s.present s.port dec = .next (s.reply (.packet (some (packet (s.counter c))))) := by
  rw [port, State.present, gives, putCounter_same]

/-- The same word at a live Sequence's counter: the queue receives the packet. -/
theorem present_sequence_packet {h : Nat} {q : Sequence} (port : s.port = .sequence h) (live : s.HasLive h q) :
    s.present s.port dec = .next ((s.putSeq h (receivePacket q (packet q.tsSw))).reply .done) := by
  rw [port, present_sequence live, gives, absorbDecoded]

end Packets

end Port

theorem exec_ovf (s : State) : exec .ovf s = s.present s.port decodeOvf := rfl

theorem exec_tp (ts : BitVec 24) (s : State) : exec (.tp ts) s = s.present s.port (decodeTp ts) := rfl

theorem exec_cw (m : BitVec 48) (x : U8) (s : State) : exec (.cw m x) s = s.present s.port (decodeCw m x) := rfl

/-- The thirteen ChipData rows (R71), in the table's order. -/
def chipRows : List (ChipFields → Instr) :=
  [.chipData0, .chipData1, .chipData2, .chipData3, .chipData4, .chipData5, .chipData6, .chipData7, .chipData8,
    .chipData9, .chipDataB, .chipDataD, .chipDataE]

/-- R79: each row meets its port in the same way. -/
theorem exec_chipRow {mk : ChipFields → Instr} (hmk : mk ∈ chipRows) (f : ChipFields) (s : State) :
    exec (mk f) s = s.present s.port (decodeChip f) := by
  simp only [chipRows] at hmk
  fin_cases hmk
  all_goals rfl

theorem exec_chipInstr (k : BitVec 4) (f : ChipFields) (s : State) :
    exec (chipInstr k f) s = s.present s.port (decodeChip f) := by
  unfold chipInstr
  split
  all_goals rfl

/-- R100: the instruction of a word decodes the word at its port. -/
theorem exec_decode (w : RawWord) (s : State) : exec (decode w) s = s.present s.port (decodeWord w) := by
  obtain hw | hw | hw | hw := control_class (ctl w)
  · rw [decode_of_ovf hw, decodeWord_of_ovf hw, exec_ovf]
  · rw [decode_of_tp hw, decodeWord_of_tp hw, exec_tp]
  · rw [decode_of_cw hw, decodeWord_of_cw hw, exec_cw]
  · rw [decode_of_chip hw, decodeWord_of_chip hw, exec_chipInstr]

/-- Settles O14: the commands present their word at the port that the word's own instruction would meet. -/
theorem wordCommandsRunTheirWord : Obligations.WordCommandsRunTheirWord := by
  constructor
  · intro w c s port
    rw [exec_decode, port]
    rfl
  · intro w h s port
    rw [exec_decode, port]
    rfl

/-- Settles O9: a write of one counter is read back there and nowhere else, and without a packet a Sequence's queue stays
as it is. -/
theorem ovfWordIncrementsCounter : Obligations.OvfWordIncrementsCounter := by
  constructor
  · intro s c port
    rw [exec_ovf, port]
    refine ⟨_, rfl, ?written, ?others, ?reply, ?seqs⟩
    case written => rw [reply_counter, putCounter_counter, if_pos rfl, decodeOvf]
    case others =>
      intro c' other
      rw [reply_counter, putCounter_counter, if_neg other]
    case reply => simp [State.reply, decodeOvf]
    case seqs => rw [reply_seqs, putCounter_seqs]
  · intro s h q port live
    rw [exec_ovf, port, present_sequence live]
    rfl

/-- Settles O10: the decoder of the class gives a packet and keeps the counter. -/
theorem tpWordGivesTestPulse : Obligations.TpWordGivesTestPulse :=
  have gives (ts : BitVec 24) (n : U32) :
      decodeTp ts n = (some (.testPulse ⟨ts.setWidth 32, n, ts.setWidth 32⟩), n) := rfl
  ⟨fun ts _ _ port => present_counter_packet (gives ts) port,
    fun ts _ _ _ port live => present_sequence_packet (gives ts) port live⟩

/-- Settles O11: the decoder of the class gives a packet, payload present, and keeps the counter. -/
theorem cwWordGivesCustomWord : Obligations.CwWordGivesCustomWord :=
  have gives (m : BitVec 48) (x : U8) (n : U32) :
      decodeCw m x n = (some (.customWord ⟨m.setWidth 64, some x⟩), n) := rfl
  ⟨fun m x _ _ port => present_counter_packet (gives m x) port,
    fun m x _ _ _ port live => present_sequence_packet (gives m x) port live⟩

/-- Settles O12: the thirteen rows meet the port alike, and the decoder of the class gives a packet and keeps the
counter. -/
theorem chipWordsGiveChipData : Obligations.ChipWordsGiveChipData := by
  intro mk hmk f s packet
  have gives (n : U32) : decodeChip f n = (some (packet n), n) := rfl
  rw [exec_chipRow hmk]
  exact ⟨fun _ => present_counter_packet gives, fun _ _ => present_sequence_packet gives⟩

theorem decodeWord_no_packet_iff (w : RawWord) (c : U32) : (decodeWord w c).1 = none ↔ ctl w = 0xF#4 := by
  obtain hw | hw | hw | hw := control_class (ctl w)
  · simp [decodeWord_of_ovf hw, decodeOvf, hw]
  · simp [decodeWord_of_tp hw, decodeTp, hw]
  · simp [decodeWord_of_cw hw, decodeCw, hw]
  · have marked : ctl w ≠ 0xF#4 := fun ovf => hw (ovf ▸ by decide)
    simp [decodeWord_of_chip hw, decodeChip, marked]

/-- Settles O13: only an OVF word writes the counter, and only an OVF word gives no packet. -/
theorem decodeCommandCompletes : Obligations.DecodeCommandCompletes := by
  intro w c s
  have ovf_iff : ctl w = 0xF#4 ↔ w >>> 60 = 0xF#64 := ctl_eq_iff w 0xF#4
  constructor
  · have counter := decodeWord_counter w (s.counter c)
    simp only [ovf_iff] at counter
    rw [← counter]
    rfl
  · rw [decodeWord_no_packet_iff, ovf_iff]

end Sys2Proof.Machine
end

section
/-! SUPPORT. Marker equality (R105): its three cases. -/

namespace Sys2Proof.Machine

variable {a b : CustomWord}

theorem markerEq_message_ne (hm : a.message ≠ b.message) : markerEq a b = false := by
  simp [markerEq, hm]

theorem markerEq_payload_absent (hm : a.message = b.message) (hp : a.payload = none ∨ b.payload = none) :
    markerEq a b = true := by
  obtain hp | hp := hp
  · simp [markerEq, hm, hp]
  · simp [markerEq, hm, hp]

theorem markerEq_payloads (hm : a.message = b.message) {x y : U8} (ha : a.payload = some x) (hb : b.payload = some y) :
    markerEq a b = decide (x = y) := by
  simp [markerEq, hm, ha, hb]

theorem exec_cwEq (s : State) (ha : a.inRange = true) (hb : b.inRange = true) :
    exec (.cwEq a b) s = .next (s.reply (.bool (markerEq a b))) := by
  simp only [exec, execCwEq, ha, hb, Bool.and_self, guarded_true, State.finish]

/-- Settles O15: the command returns the marker equality of its operands. -/
theorem cwEqResult : Obligations.CwEqResult := by
  intro a b s ha hb
  rw [exec_cwEq s ha hb]
  refine ⟨fun hm => ?_, fun hm hp => ?_, fun x y hm hx hy => ?_⟩
  · rw [markerEq_message_ne hm]
  · rw [markerEq_payload_absent hm hp]
  · rw [markerEq_payloads hm hx hy]

theorem markerEq_refl (a : CustomWord) : markerEq a a = true := by
  cases hp : a.payload with
  | none => exact markerEq_payload_absent rfl (.inl hp)
  | some x => rw [markerEq_payloads rfl hp hp, decide_eq_true rfl]

theorem markerEq_comm (a b : CustomWord) : markerEq a b = markerEq b a := by
  by_cases hm : a.message = b.message
  · cases ha : a.payload with
    | none => rw [markerEq_payload_absent hm (.inl ha), markerEq_payload_absent hm.symm (.inr ha)]
    | some x =>
      cases hb : b.payload with
      | none => rw [markerEq_payload_absent hm (.inr hb), markerEq_payload_absent hm.symm (.inl hb)]
      | some y => rw [markerEq_payloads hm ha hb, markerEq_payloads hm.symm hb ha, decide_eq_decide, eq_comm]
  · rw [markerEq_message_ne hm, markerEq_message_ne (Ne.symm hm)]

/-- Settles O16: a marker without payload equals both of two markers with different payloads. -/
theorem markerEqualityNotTransitive : Obligations.MarkerEqualityNotTransitive := by
  refine ⟨markerEq_refl, markerEq_comm, fun m x y different => ?_⟩
  refine ⟨⟨m, some x⟩, ⟨m, none⟩, ⟨m, some y⟩, rfl, rfl, ?_, ?_, ?_⟩
  · exact markerEq_payload_absent rfl (.inr rfl)
  · exact markerEq_payload_absent rfl (.inl rfl)
  · rw [markerEq_payloads (a := ⟨m, some x⟩) (b := ⟨m, some y⟩) rfl rfl rfl, decide_eq_false different]

end Sys2Proof.Machine
end

section
/-! SUPPORT. The coordinate functions (R120-R124) in natural numbers, by shift and mask as the source writes them and by
division and remainder, and the commands that return them. -/

namespace Sys2Proof.Machine

variable {x : U16} (row col : U16) (s : State)

theorem coordinateOk_of_le (hx : x.toNat ≤ 511) : coordinateOk x = true :=
  decide_eq_true (Nat.lt_succ_of_le hx)

theorem coordinateOk_of_gt (hx : 511 < x.toNat) : coordinateOk x = false :=
  decide_eq_false (Nat.not_lt.mpr hx)

/-! ### By shift and mask -/

theorem exec_secFromCol : exec (.secFromCol col) s =
    guarded (coordinateOk col) .coordinateOutOfRange (.next (s.reply (.number (col.toNat >>> 5)))) := by
  rw [← BitVec.toNat_ushiftRight]
  rfl

theorem exec_dcolFromCol : exec (.dcolFromCol col) s =
    guarded (coordinateOk col) .coordinateOutOfRange (.next (s.reply (.number ((col.toNat >>> 1) &&& 0xF)))) := by
  rw [← BitVec.toNat_ushiftRight]
  rfl

theorem exec_coreprFromRow : exec (.coreprFromRow row) s =
    guarded (coordinateOk row) .coordinateOutOfRange (.next (s.reply (.number (row.toNat >>> 2)))) := by
  rw [← BitVec.toNat_ushiftRight]
  rfl

theorem exec_masterFromRow : exec (.masterFromRow row) s =
    guarded (coordinateOk row) .coordinateOutOfRange (.next (s.reply (.number ((row.toNat >>> 1) &&& 1)))) := by
  rw [← BitVec.toNat_ushiftRight]
  rfl

theorem exec_idxFromPos : exec (.idxFromPos row col) s =
    guarded (coordinateOk row && coordinateOk col) .coordinateOutOfRange
      (.next (s.reply (.number ((row.toNat &&& 1) * 2 + (col.toNat &&& 1))))) :=
  rfl

/-! ### By division and remainder -/

theorem secFromCol_eq_div : secFromCol col = col.toNat / 32 := by
  simp [secFromCol, Nat.shiftRight_eq_div_pow]

theorem dcolFromCol_eq_mod : dcolFromCol col = col.toNat / 2 % 16 := by
  simpa [dcolFromCol, Nat.shiftRight_eq_div_pow] using Nat.and_two_pow_sub_one_eq_mod (col.toNat / 2) 4

theorem coreprFromRow_eq_div : coreprFromRow row = row.toNat / 4 := by
  simp [coreprFromRow, Nat.shiftRight_eq_div_pow]

theorem masterFromRow_eq_mod : masterFromRow row = row.toNat / 2 % 2 := by
  simp [masterFromRow, Nat.shiftRight_eq_div_pow]

theorem idxFromPos_eq_mod : idxFromPos row col = row.toNat % 2 * 2 + col.toNat % 2 := by
  simp [idxFromPos]

/-- Settles O17: the guard of each command tests its operands against 511. -/
theorem coordinateFunctionResults : Obligations.CoordinateFunctionResults := by
  intro row col s
  rw [exec_secFromCol, exec_dcolFromCol, exec_coreprFromRow, exec_masterFromRow, exec_idxFromPos]
  have row_bit : row.toNat &&& 1 ≤ 1 := Nat.and_le_right
  have col_bit : col.toNat &&& 1 ≤ 1 := Nat.and_le_right
  refine ⟨fun hc => ?sec, fun hc => ?dcol, fun hr => ?corepr, fun hr => ?master, fun hr hc => ?idx,
    fun hc => ?colRefused, fun hr => ?rowRefused, fun out => ?idxRefused⟩
  case sec =>
    rw [coordinateOk_of_le hc, Nat.shiftRight_eq_div_pow]
    exact ⟨rfl, by omega⟩
  case dcol =>
    rw [coordinateOk_of_le hc]
    exact ⟨rfl, Nat.and_le_right⟩
  case corepr =>
    rw [coordinateOk_of_le hr, Nat.shiftRight_eq_div_pow]
    exact ⟨rfl, by omega⟩
  case master =>
    rw [coordinateOk_of_le hr]
    exact ⟨rfl, Nat.and_le_right⟩
  case idx =>
    rw [coordinateOk_of_le hr, coordinateOk_of_le hc]
    exact ⟨rfl, by omega⟩
  case colRefused =>
    rw [coordinateOk_of_gt hc]
    exact ⟨rfl, rfl⟩
  case rowRefused =>
    rw [coordinateOk_of_gt hr]
    exact ⟨rfl, rfl⟩
  case idxRefused =>
    obtain hr | hc := out
    · rw [coordinateOk_of_gt hr, Bool.false_and, guarded_false]
    · rw [coordinateOk_of_gt hc, Bool.and_false, guarded_false]

end Sys2Proof.Machine
end

section
/-! SUPPORT. The master register index (R125): a number with the digits `sec`, `col` and `corepr`, which lie side by
side in the word. -/

namespace Sys2Proof.Machine

variable {p p' : ChipData}

/-- The ranges of the three fields that place a packet in the matrix (R21). -/
theorem address_ranges (hp : p.inRange = true) :
    p.corepr.toNat < 128 ∧ p.col.toNat < 16 ∧ p.sec.toNat < 16 := by
  simp only [ChipData.inRange, Bool.and_eq_true, decide_eq_true_eq] at hp
  omega

theorem masterIdx_le (hp : p.inRange = true) : masterIdx p ≤ 32767 := by
  have ranges := address_ranges hp
  unfold masterIdx
  omega

theorem masterIdx_injective (hp : p.inRange = true) (hp' : p'.inRange = true) (same : masterIdx p = masterIdx p') :
    p.sec = p'.sec ∧ p.col = p'.col ∧ p.corepr = p'.corepr := by
  have ranges := address_ranges hp
  have ranges' := address_ranges hp'
  simp only [masterIdx] at same
  simp only [← BitVec.toNat_inj]
  omega

theorem masterIdx_chipPacket (w : RawWord) (c : U32) :
    masterIdx (chipPacket (chipFields w) c) = (w.extractLsb' 9 15).toNat := by
  simp only [masterIdx, chipPacket, chipFields, BitVec.toNat_setWidth, BitVec.extractLsb'_toNat,
    Nat.shiftRight_eq_div_pow]
  omega

/-- A word that decodes to a ChipData packet is of the ChipData class. -/
theorem eq_chipPacket_of_decodeWord {w : RawWord} {c c' : U32} (hp : decodeWord w c = (some (.chipData p), c')) :
    p = chipPacket (chipFields w) c := by
  obtain hw | hw | hw | hw := control_class (ctl w)
  · simp [decodeWord_of_ovf hw, decodeOvf] at hp
  · simp [decodeWord_of_tp hw, decodeTp] at hp
  · simp [decodeWord_of_cw hw, decodeCw] at hp
  · simp only [decodeWord_of_chip hw, decodeChip, Prod.mk.injEq, Option.some.injEq, Packet.chipData.injEq] at hp
    exact hp.1.symm

/-- Settles O18: the index is a number with the digits `sec`, `col` and `corepr`. -/
theorem masterIdxResult : Obligations.MasterIdxResult := by
  refine ⟨fun p s hp => ⟨?_, masterIdx_le hp⟩, fun p p' => masterIdx_injective, fun w c c' p hp => ?_⟩
  · simp only [exec, execMasterIdx, hp, guarded_true, State.finish, masterIdx]
  · rw [eq_chipPacket_of_decodeWord hp, masterIdx_chipPacket]

end Sys2Proof.Machine
end

section
/-! SUPPORT. The pixels of a packet (R126): which hitmap bits lie in the matrix (R127), and what `pixelsOf` answers. -/

namespace Sys2Proof.Machine

variable {p : ChipData} {pix : Nat}

theorem mem_setBits : pix ∈ setBits p ↔ pix < 8 ∧ p.hitmap.getLsbD pix = true := by
  simp [setBits]

/-! ### The region and the row of a bit -/

theorem regionOf_high (high : pix > 3) : regionOf p pix = p.corepr.toNat :=
  if_pos high

theorem regionOf_low (low : ¬ pix > 3) : regionOf p pix = p.corepr.toNat + 1 - (if p.bottom then 1 else 0) := by
  rw [regionOf, if_neg low]
  cases p.bottom
  · rfl
  · rfl

theorem regionOf_eq : regionOf p pix =
    if pix > 3 then p.corepr.toNat else p.corepr.toNat + 1 - (if p.bottom then 1 else 0) := by
  split
  case isTrue high => exact regionOf_high high
  case isFalse low => exact regionOf_low low

/-- The row has the digits region, half and row within the half; the last two are bits 2 and 1 of `pix`. -/
theorem pixelRow_eq (bit : pix < 8) : pixelRow p pix = regionOf p pix * 4 + pix / 4 * 2 + pix % 4 / 2 := by
  unfold pixelRow
  split <;> split <;> omega

/-- One region above the last exists only for the low bits of a packet that is not at the bottom. -/
theorem regionOf_beyond_iff (hp : p.inRange = true) :
    128 ≤ regionOf p pix ↔ pix ≤ 3 ∧ p.corepr.toNat = 127 ∧ p.bottom = false := by
  have ranges := address_ranges hp
  by_cases high : pix > 3
  · rw [regionOf_high high]
    omega
  · rw [regionOf_low high]
    cases p.bottom
    · simp only [Bool.false_eq_true, reduceIte, and_true]
      omega
    · simp only [Bool.true_eq_false, reduceIte, and_false, iff_false]
      omega

/-! ### The range test -/

theorem pixelInMatrix_iff : pixelInMatrix p pix = true ↔ pixelRow p pix < 512 ∧ pixelCol p pix < 512 := by
  simp only [pixelInMatrix, Bool.and_eq_true, decide_eq_true_eq]
  rfl

/-- The only pixels outside the matrix are those one region above the last, rows 512 and 513 (R127). -/
theorem pixelInMatrix_false_iff (hp : p.inRange = true) (bit : pix < 8) :
    pixelInMatrix p pix = false ↔ pix ≤ 3 ∧ p.corepr.toNat = 127 ∧ p.bottom = false := by
  have ranges := address_ranges hp
  have col_inside : pixelCol p pix < 512 := by
    unfold pixelCol
    omega
  rw [← regionOf_beyond_iff hp, ← Bool.not_eq_true, pixelInMatrix_iff, pixelRow_eq bit]
  omega

theorem low_bit_set_iff (hitmap : U8) : (∃ pix ≤ 3, hitmap.getLsbD pix = true) ↔ hitmap.toNat % 16 ≠ 0 := by
  have low_bits (pix : Nat) : (hitmap.toNat % 16).testBit pix = (decide (pix < 4) && hitmap.getLsbD pix) :=
    Nat.testBit_mod_two_pow hitmap.toNat 4 pix
  constructor
  · intro ⟨pix, low, set⟩ zero
    simpa [zero, set, show pix < 4 by omega] using low_bits pix
  · intro nonzero
    obtain ⟨pix, set⟩ := Nat.exists_testBit_of_ne_zero nonzero
    rw [low_bits, Bool.and_eq_true, decide_eq_true_eq] at set
    exact ⟨pix, Nat.le_of_lt_succ set.1, set.2⟩

/-- A packet has a pixel outside the matrix where its region is the last, it is not at the bottom and one of its low
bits is set. -/
theorem pixel_outside_iff (hp : p.inRange = true) :
    (setBits p).all (pixelInMatrix p) = false
      ↔ p.corepr.toNat = 127 ∧ p.bottom = false ∧ p.hitmap.toNat % 16 ≠ 0 := by
  rw [List.all_eq_false, ← low_bit_set_iff]
  constructor
  · intro ⟨pix, mem, outside⟩
    obtain ⟨bit, set⟩ := mem_setBits.mp mem
    obtain ⟨low, last, not_bottom⟩ := (pixelInMatrix_false_iff hp bit).mp (Bool.eq_false_iff.mpr outside)
    exact ⟨last, not_bottom, pix, low, set⟩
  · intro ⟨last, not_bottom, pix, low, set⟩
    have bit : pix < 8 := by omega
    have outside := (pixelInMatrix_false_iff hp bit).mpr ⟨low, last, not_bottom⟩
    exact ⟨pix, mem_setBits.mpr ⟨bit, set⟩, Bool.eq_false_iff.mp outside⟩

/-! ### The answer -/

theorem pixelsOf_eq_none (outside : (setBits p).all (pixelInMatrix p) = false) : pixelsOf p = none := by
  simp [pixelsOf, outside]

theorem pixelsOf_eq_some (inside : (setBits p).all (pixelInMatrix p) = true) :
    pixelsOf p = some ((setBits p).map (pixelAt p)) :=
  if_pos inside

theorem pixelsOf_some {ps : List Pixel} (hps : pixelsOf p = some ps) :
    ps = (setBits p).map (pixelAt p) ∧ ∀ pix ∈ setBits p, pixelInMatrix p pix = true := by
  cases inside : (setBits p).all (pixelInMatrix p)
  · rw [pixelsOf_eq_none inside] at hps
    cases hps
  · rw [pixelsOf_eq_some inside] at hps
    exact ⟨(Option.some.inj hps).symm, List.all_eq_true.mp inside⟩

theorem pixelAt_eq : pixelAt p pix =
    ⟨BitVec.ofNat 16 ((if pix > 3 then 2 else 0)
        + (if pix > 3 then p.corepr.toNat else p.corepr.toNat + 1 - (if p.bottom then 1 else 0)) * 4
        + (if pix % 4 > 1 then 1 else 0)),
      BitVec.ofNat 16 (p.sec.toNat * 32 + p.col.toNat * 2 + pix % 2)⟩ := by
  rw [← regionOf_eq]
  rfl

/-- Settles O19: a pixel lies outside exactly in the raising case of R127. -/
theorem pixelsOfResult : Obligations.PixelsOfResult := by
  intro p s hp
  simp only [exec, execPixelsOf, hp, guarded_true, ← pixel_outside_iff hp, ← pixelAt_eq]
  cases inside : (setBits p).all (pixelInMatrix p)
  · rw [pixelsOf_eq_none inside]
    rfl
  · rw [pixelsOf_eq_some inside]
    rfl

end Sys2Proof.Machine
end

section
/-! SUPPORT. A pixel in the matrix gives back the address it was built from (R128). -/

namespace Sys2Proof.Machine

section Inverse

variable {p : ChipData} {pix : Nat}

theorem pixelAt_row_toNat (inside : pixelInMatrix p pix = true) : (pixelAt p pix).row.toNat = pixelRow p pix := by
  have bounds := pixelInMatrix_iff.mp inside
  exact Nat.mod_eq_of_lt (by omega)

theorem pixelAt_col_toNat (inside : pixelInMatrix p pix = true) : (pixelAt p pix).col.toNat = pixelCol p pix := by
  have bounds := pixelInMatrix_iff.mp inside
  exact Nat.mod_eq_of_lt (by omega)

theorem secFromCol_pixelAt (hp : p.inRange = true) (inside : pixelInMatrix p pix = true) :
    secFromCol (pixelAt p pix).col = p.sec.toNat := by
  have ranges := address_ranges hp
  rw [secFromCol_eq_div, pixelAt_col_toNat inside, pixelCol]
  omega

theorem dcolFromCol_pixelAt (hp : p.inRange = true) (inside : pixelInMatrix p pix = true) :
    dcolFromCol (pixelAt p pix).col = p.col.toNat := by
  have ranges := address_ranges hp
  rw [dcolFromCol_eq_mod, pixelAt_col_toNat inside, pixelCol]
  omega

variable (bit : pix < 8) (inside : pixelInMatrix p pix = true)

include bit inside

theorem coreprFromRow_pixelAt : coreprFromRow (pixelAt p pix).row = regionOf p pix := by
  rw [coreprFromRow_eq_div, pixelAt_row_toNat inside, pixelRow_eq bit]
  omega

theorem masterFromRow_pixelAt : masterFromRow (pixelAt p pix).row = pix / 4 := by
  rw [masterFromRow_eq_mod, pixelAt_row_toNat inside, pixelRow_eq bit]
  omega

theorem idxFromPos_pixelAt : idxFromPos (pixelAt p pix).row (pixelAt p pix).col = pix % 4 := by
  rw [idxFromPos_eq_mod, pixelAt_row_toNat inside, pixelAt_col_toNat inside, pixelRow_eq bit, pixelCol]
  omega

end Inverse

/-- Settles O20: the pixels returned are those of the set bits in order, all in the matrix, and a pixel in the matrix
gives back its address. -/
theorem coordinatesInvertPixels : Obligations.CoordinatesInvertPixels := by
  intro p ps hp hps
  obtain ⟨rfl, all_inside⟩ := pixelsOf_some hps
  refine ⟨List.length_map _, fun j pix hj => ?_⟩
  have mem : pix ∈ setBits p := List.mem_of_getElem? hj
  have inside := all_inside pix mem
  have bit : pix < 8 := (mem_setBits.mp mem).1
  have bounds := pixelInMatrix_iff.mp inside
  refine ⟨pixelAt p pix, by rw [List.getElem?_map, hj, Option.map_some], ?_, ?_, secFromCol_pixelAt hp inside,
    dcolFromCol_pixelAt hp inside, ?_, ?_, idxFromPos_pixelAt bit inside, ?_⟩
  · rw [pixelAt_row_toNat inside]
    omega
  · rw [pixelAt_col_toNat inside]
    omega
  · rw [coreprFromRow_pixelAt bit inside, regionOf_eq]
  · rw [masterFromRow_pixelAt bit inside]
    split <;> omega
  · rw [masterFromRow_pixelAt bit inside, idxFromPos_pixelAt bit inside]
    omega

end Sys2Proof.Machine
end

section
/-! SUPPORT. The extended timestamp (R140) as three byte groups: the counter's low byte, the FPGA's upper two bytes
after the borrow, and `ts`. -/

namespace Sys2Proof.Machine

/-- R140: `msb` after the borrow, the part of the timestamp that comes from the FPGA. -/
def msbAfterBorrow (ts : U8) (tsFpga : U32) : U32 :=
  if tsFpga &&& 0xFF#32 < ts.setWidth 32 then (tsFpga &&& 0xFFFF00#32) - 0x100#32 else tsFpga &&& 0xFFFF00#32

variable (ts : U8) (tsFpga tsSw : U32)

theorem extendTs_eq : extendTs ts tsFpga tsSw = tsSw <<< 24 ||| msbAfterBorrow ts tsFpga ||| ts.setWidth 32 := rfl

/-! ### The masks and the borrow in natural numbers -/

theorem and_lsbMask_toNat : (tsFpga &&& 0xFF#32).toNat = tsFpga.toNat % 256 :=
  Nat.and_two_pow_sub_one_eq_mod tsFpga.toNat 8

theorem and_msbMask : tsFpga &&& 0xFFFF00#32 = (tsFpga.extractLsb' 8 16).setWidth 32 <<< 8 := by
  ext i hi
  interval_cases i <;> simp

theorem and_msbMask_toNat : (tsFpga &&& 0xFFFF00#32).toNat = tsFpga.toNat / 256 % 2 ^ 16 * 256 := by
  rw [and_msbMask, BitVec.toNat_shiftLeft, BitVec.toNat_setWidth, BitVec.extractLsb'_toNat, Nat.shiftRight_eq_div_pow,
    Nat.shiftLeft_eq]
  omega

theorem borrows_iff : tsFpga &&& 0xFF#32 < ts.setWidth 32 ↔ tsFpga.toNat % 256 < ts.toNat := by
  rw [BitVec.lt_def, and_lsbMask_toNat, BitVec.toNat_setWidth_of_le (by decide)]

theorem msbAfterBorrow_toNat : (msbAfterBorrow ts tsFpga).toNat =
    if tsFpga.toNat % 256 < ts.toNat then (tsFpga.toNat / 256 % 2 ^ 16 * 256 + (2 ^ 32 - 256)) % 2 ^ 32
    else tsFpga.toNat / 256 % 2 ^ 16 * 256 := by
  rw [msbAfterBorrow, apply_ite BitVec.toNat, BitVec.toNat_sub, and_msbMask_toNat, add_comm]
  exact if_congr (borrows_iff ts tsFpga) rfl rfl

/-! ### The result of `EXTEND_TS` -/

/-- A value of the decoder's range (R140) has no bits above `msb`. -/
theorem extendTs_toNat (inRange : tsFpga.toNat < 2 ^ 24) : (extendTs ts tsFpga tsSw).toNat =
    ((tsSw.toNat * 2 ^ 24) % 2 ^ 32
      ||| (if tsFpga.toNat % 256 < ts.toNat then (tsFpga.toNat / 256 * 256 + (2 ^ 32 - 256)) % 2 ^ 32
        else tsFpga.toNat / 256 * 256)
      ||| ts.toNat) := by
  have msb : tsFpga.toNat / 256 % 2 ^ 16 = tsFpga.toNat / 256 := Nat.mod_eq_of_lt (by omega)
  rw [extendTs_eq, BitVec.toNat_or, BitVec.toNat_or, BitVec.toNat_shiftLeft, Nat.shiftLeft_eq, msbAfterBorrow_toNat,
    msb, BitVec.toNat_setWidth_of_le (by decide)]

theorem exec_extendTs (s : State) : exec (.extendTs ts tsFpga tsSw) s =
    guarded (tsFpgaOk tsFpga) .tsFpgaOutOfRange (.next (s.reply (.timestamp (extendTs ts tsFpga tsSw)))) := rfl

/-- Settles O21: the guard of the command tests `ts_fpga` against `2 ^ 24`, and below it the masks take all of
`ts_fpga`. -/
theorem extendTsResult : Obligations.ExtendTsResult := by
  intro ts fpga sw s
  rw [exec_extendTs]
  refine ⟨fun inRange => ?result, fun outOfRange => ?refused⟩
  case result =>
    rw [tsFpgaOk, decide_eq_true inRange, guarded_true, ← extendTs_toNat ts fpga sw inRange, BitVec.ofNat_toNat,
      BitVec.setWidth_eq]
  case refused => rw [tsFpgaOk, decide_eq_false (Nat.not_lt.mpr outOfRange), guarded_false]

/-! ### The corner cases of R140 -/

/-- Neither the mask nor the borrow of 256 touches the low byte. -/
theorem msbAfterBorrow_lowByte : (msbAfterBorrow ts tsFpga).setWidth 8 = 0#8 := by
  apply BitVec.eq_of_toNat_eq
  rw [BitVec.toNat_setWidth, msbAfterBorrow_toNat, BitVec.toNat_zero]
  split
  · omega
  · omega

theorem extendTs_lowByte : (extendTs ts tsFpga tsSw).setWidth 8 = ts := by
  have counter : (tsSw <<< 24).setWidth 8 = 0#8 := by
    ext i hi
    simp
  rw [extendTs_eq, BitVec.setWidth_or, BitVec.setWidth_or, counter, msbAfterBorrow_lowByte]
  simp

theorem msbAfterBorrow_underflow (noMsb : tsFpga.toNat < 256) (borrow : tsFpga.toNat < ts.toNat) :
    msbAfterBorrow ts tsFpga = 0xFFFFFF00#32 := by
  apply BitVec.eq_of_toNat_eq
  rw [msbAfterBorrow_toNat, Nat.mod_eq_of_lt noMsb, if_pos borrow, Nat.div_eq_of_lt noMsb]
  rfl

/-- A borrow from `msb = 0` sets every bit the counter could set. -/
theorem extendTs_underflow (noMsb : tsFpga.toNat < 256) (borrow : tsFpga.toNat < ts.toNat) :
    extendTs ts tsFpga tsSw = 0xFFFFFF00#32 ||| ts.setWidth 32 := by
  have hidden : tsSw <<< 24 ||| 0xFFFFFF00#32 = 0xFFFFFF00#32 := by
    ext i hi
    interval_cases i <;> simp
  rw [extendTs_eq, msbAfterBorrow_underflow ts tsFpga noMsb borrow, hidden]

/-- The shift by 24 keeps the low byte of the counter only. -/
theorem extendTs_add_256 : extendTs ts tsFpga (tsSw + 256#32) = extendTs ts tsFpga tsSw := by
  have truncated : (tsSw + 256#32) <<< 24 = tsSw <<< 24 := by
    rw [BitVec.shiftLeft_add_distrib]
    exact BitVec.add_zero _
  rw [extendTs_eq, extendTs_eq, truncated]

/-- Settles O22: the three byte groups of the timestamp, one by one. -/
theorem extendTsCorners : Obligations.ExtendTsCorners :=
  ⟨extendTs_lowByte, extendTs_underflow, extendTs_add_256⟩

end Sys2Proof.Machine
end

section
/-! SUPPORT. Rebasing (R142), by the decoding against a shifted counter that it equals (R145). -/

namespace Sys2Proof.Machine

/-- Settles O24: the stream decoded from the counter `0 + b`. -/
theorem rebaseEqualsShiftedDecode : Obligations.RebaseEqualsShiftedDecode := by
  intro ws b
  rw [decodeStream_map_rebase, zero_add]

/-- A packet's `ts_ext` is that of its fields where it was decoded, so shifting its counter by 0 restores it. -/
theorem rebase_zero_of_decodeWord {w : RawWord} {c : U32} {p : Packet} (hp : (decodeWord w c).1 = some p) :
    rebase 0 p = p := by
  have shifted : (decodeWord w (c + 0)).1 = (decodeWord w c).1.map (rebase 0) := by rw [decodeWord_add]
  rw [add_zero, hp, Option.map_some] at shifted
  exact (Option.some.inj shifted).symm

/-- Settles O23: the equations of `rebase`, in RAW mode for a TestPulse, and `rebase_zero_of_decodeWord`. -/
theorem rebaseRecomputes : Obligations.RebaseRecomputes :=
  ⟨fun _ _ => rfl, fun _ _ => rfl, fun _ _ => rfl, fun _ _ _ => rebase_zero_of_decodeWord⟩

end Sys2Proof.Machine
end

section
/-! SUPPORT. Lock bodies that neither read nor write the lock: run under the lock (R56), such a body leaves what it
makes of the Sequence itself. -/

namespace Sys2Proof.Machine

/-- The body neither reads nor writes the lock of its Sequence. -/
def IgnoresLock (body : Sequence → Sequence × Ending) : Prop :=
  ∀ (q : Sequence) (who : Option Agent),
    body { q with lock := who } = ({ (body q).1 with lock := who }, (body q).2)

variable {s : State} {h : Nat} {q : Sequence} {body : Sequence → Sequence × Ending}

theorem sequence_unlocked (free : q.lock = none) : ({ q with lock := none } : Sequence) = q := by
  rw [← free]

/-- Freeing the lock after the body gives what the body makes of the unlocked Sequence. -/
theorem IgnoresLock.freed (ignores : IgnoresLock body) (free : q.lock = none) (who : Option Agent) :
    ({ (body { q with lock := who }).1 with lock := none } : Sequence) = (body q).1 := by
  have unlocked := ignores q none
  rw [sequence_unlocked free] at unlocked
  rw [ignores q who]
  exact (congrArg Prod.fst unlocked).symm

theorem IgnoresLock.locked (ignores : IgnoresLock body) (who : Agent) (hq : s.seqs[h]? = some q)
    (free : q.lock = none) : s.locked h who body = .next ((s.putSeq h (body q).1).conclude (body q).2) := by
  rw [locked_eq hq free, ignores.freed free, ignores q (some who)]

theorem IgnoresLock.commandOn (ignores : IgnoresLock body) (live : s.HasLive h q) :
    s.commandOn h body = .next ((s.putSeq h (body q).1).conclude (body q).2) := by
  rw [commandOn_live live, ignores.freed live.free, ignores q (some (.caller s.issuer))]

end Sys2Proof.Machine
end

section
/-! SUPPORT. Concatenation of queues (R168) is associative, so extending by what a word left (R162) is extending and
then receiving the rebased word; from there FOLD is FEED (R171). -/

namespace Sys2Proof.Machine

/-- Behind an incomplete SubSequence, what is merged in decides whether the whole is complete. -/
theorem isComplete_append_of_incomplete {sub : SubSequence} (incomplete : isComplete sub = false)
    (first : SubSequence) : isComplete (sub ++ first) = isComplete first := by
  cases first with
  | nil => rw [List.append_nil, incomplete]; rfl
  | cons p rest => exact isComplete_append (List.cons_ne_nil p rest)

theorem concatQueues_nil_left (absorbed : List SubSequence) : concatQueues [] absorbed = absorbed :=
  concatQueues_closed [] absorbed hasOpen_nil

/-- Only the last SubSequence of the left queue matters. -/
theorem concatQueues_append_left (pre absorbed : List SubSequence) {queue : List SubSequence} (hq : queue ≠ []) :
    concatQueues (pre ++ queue) absorbed = pre ++ concatQueues queue absorbed := by
  rcases eq_nil_or_snoc queue with rfl | ⟨init, last, rfl⟩
  · exact absurd rfl hq
  rw [← List.append_assoc]
  cases hl : isComplete last with
  | true =>
    have closed (front : List SubSequence) : hasOpen (front ++ [last]) = false := by
      rw [hasOpen_concat, hl, Bool.not_true]
    rw [concatQueues_closed _ _ (closed _), concatQueues_closed _ _ (closed _)]
    simp only [List.append_assoc]
  | false =>
    cases absorbed with
    | nil => simp
    | cons first rest =>
      rw [concatQueues_open _ _ _ _ hl, concatQueues_open _ _ _ _ hl, List.append_assoc]

/-- Concatenation onto one incomplete SubSequence merges into the head. -/
theorem concatQueues_singleton_open {sub : SubSequence} (incomplete : isComplete sub = false) (first : SubSequence)
    (rest : List SubSequence) : concatQueues [sub] (first :: rest) = (sub ++ first) :: rest :=
  concatQueues_open [] sub first rest incomplete

theorem concatQueues_singleton_assoc {sub : SubSequence} (incomplete : isComplete sub = false)
    (mid right : List SubSequence) :
    concatQueues (concatQueues [sub] mid) right = concatQueues [sub] (concatQueues mid right) := by
  match mid, right with
  | mid, [] => rfl
  | [], right => rw [concatQueues_nil, concatQueues_nil_left]
  | [first], next :: rest =>
    rw [concatQueues_singleton_open incomplete]
    have merged := isComplete_append_of_incomplete incomplete first
    cases hf : isComplete first with
    | true =>
      rw [concatQueues_closed [sub ++ first] _ (by simp [hasOpen, merged, hf]),
        concatQueues_closed [first] _ (by simp [hasOpen, hf])]
      exact (concatQueues_singleton_open incomplete _ _).symm
    | false =>
      rw [concatQueues_singleton_open (merged.trans hf), concatQueues_singleton_open hf,
        concatQueues_singleton_open incomplete, List.append_assoc]
  | first :: second :: rest, right =>
    have behind (head : SubSequence) :
        concatQueues (head :: second :: rest) right = head :: concatQueues (second :: rest) right :=
      concatQueues_append_left [head] right (List.cons_ne_nil second rest)
    rw [concatQueues_singleton_open incomplete, behind, behind, concatQueues_singleton_open incomplete]

theorem concatQueues_assoc (left mid right : List SubSequence) :
    concatQueues (concatQueues left mid) right = concatQueues left (concatQueues mid right) := by
  rcases hasOpen_cases left with closed | ⟨pre, sub, rfl, incomplete⟩
  · rw [concatQueues_closed _ mid closed, concatQueues_closed _ (concatQueues mid right) closed]
    cases mid with
    | nil => rw [List.append_nil, concatQueues_closed _ _ closed, concatQueues_nil_left]
    | cons first rest => exact concatQueues_append_left left right (List.cons_ne_nil first rest)
  · have behind (queue : List SubSequence) : concatQueues (pre ++ [sub]) queue = pre ++ concatQueues [sub] queue :=
      concatQueues_append_left pre queue (List.cons_ne_nil sub [])
    have merged : concatQueues [sub] mid ≠ [] := by cases mid <;> simp [concatQueues, hasOpen, incomplete]
    rw [behind mid, behind, concatQueues_append_left pre right merged, concatQueues_singleton_assoc incomplete]

theorem hasOpen_map_rebase (b : U32) (queue : List SubSequence) :
    hasOpen (queue.map (List.map (rebase b))) = hasOpen queue := by
  rcases eq_nil_or_snoc queue with rfl | ⟨pre, sub, rfl⟩
  · rfl
  · rw [List.map_append, List.map_singleton, hasOpen_concat, hasOpen_concat, isComplete_map_rebase]

/-- Rebasing (R142) keeps the framing, so it can be done before or after a packet is received. -/
theorem appendPacket_map_rebase (b : U32) (queue : List SubSequence) (p : Packet) :
    (appendPacket queue p).map (List.map (rebase b))
      = appendPacket (queue.map (List.map (rebase b))) (rebase b p) := by
  rcases hasOpen_cases queue with closed | ⟨pre, sub, rfl, incomplete⟩
  · rw [appendPacket_closed _ _ closed, appendPacket_closed _ _ ((hasOpen_map_rebase b queue).trans closed)]
    simp
  · have rebased := (isComplete_map_rebase b sub).trans incomplete
    rw [appendPacket_open _ _ _ incomplete, List.map_append, List.map_append, List.map_singleton, List.map_singleton,
      appendPacket_open _ _ _ rebased]
    simp

/-- A word received before the concatenation, or after it. -/
theorem extendSequence_receiveWord (q other : Sequence) (w : RawWord) :
    extendSequence q (receiveWord other w) = receiveWord (extendSequence q other) w := by
  have shifted : decodeWord w (q.tsSw + other.tsSw)
      = ((decodeWord w other.tsSw).1.map (rebase q.tsSw), q.tsSw + (decodeWord w other.tsSw).2) := by
    rw [add_comm, decodeWord_add, add_comm q.tsSw]
  simp only [receiveWord, absorbDecoded_eq, extendSequence, shifted]
  cases (decodeWord w other.tsSw).1 with
  | none => rfl
  | some p =>
    simp only [Option.map_some, appendPacket_map_rebase]
    simp only [appendPacket_eq_concatQueues, concatQueues_assoc]

theorem extendSequence_feed (q : Sequence) (ws : List RawWord) :
    ∀ other : Sequence, extendSequence q (feed other ws) = feed (extendSequence q other) ws := by
  induction ws with
  | nil => exact fun _ => rfl
  | cons w ws ih =>
    intro other
    calc extendSequence q (feed (receiveWord other w) ws)
      _ = feed (extendSequence q (receiveWord other w)) ws := ih (receiveWord other w)
      _ = feed (receiveWord (extendSequence q other) w) ws := by rw [extendSequence_receiveWord]

/-- An empty, zero-origin Sequence adds nothing. -/
theorem extendSequence_fresh (q : Sequence) (timeout : Seconds) : extendSequence q (Sequence.fresh timeout) = q := by
  simp [extendSequence, Sequence.fresh]

/-- Settles O38: the words can be fed behind the concatenation, and what is then concatenated, a fresh Sequence, adds
nothing. -/
theorem foldEqualsFeeding : Obligations.FoldEqualsFeeding := by
  intro q
  rw [foldBatch, extendSequence_feed, extendSequence_fresh]

end Sys2Proof.Machine
end

section
/-! SUPPORT. Blocking commands: the three endings of the lock body of `POP` and `READ`, at issue and at a later check
(R163-R167). -/

namespace Sys2Proof.Machine

/-- The state after the lock body of `p` ran on its Sequence `q`. -/
def State.resolved (s : State) (expire : Bool) (p : Pending) (q : Sequence) : State :=
  (s.putSeq p.seq (resolve expire p q).1).conclude (resolve expire p q).2

section Outcomes

variable {s : State} {p : Pending} {q : Sequence} (expire : Bool)

/-- The condition holds (R163, R165). -/
theorem resolved_ready {sub : SubSequence} (here : q.queue[p.index]? = some sub) (hr : ready p sub = true) :
    s.resolved expire p q = (s.putSeq p.seq (takeAt p.kind p.index q)).reply (.sub sub) := by
  simp [State.resolved, resolve, here, hr, State.conclude]

/-- Without a reader active only the bounds check can fail (R165). -/
theorem resolved_outOfRange (named : s.seqs[p.seq]? = some q) (inactive : p.readerActive = false)
    (beyond : q.queue.length ≤ p.index) :
    s.resolved expire p q = s.reply (.error (.popIndexOutOfRange p.index q.queue.length)) := by
  simp [State.resolved, resolve, List.getElem?_eq_none beyond, inactive, State.conclude, putSeq_same s p.seq q named]

/-- With a reader active and nothing complete at the index the Sequence stays, and the turn's bit chooses between the
timeout and waiting (R163, R164). -/
theorem resolved_blocked (named : s.seqs[p.seq]? = some q) (active : p.readerActive = true)
    (incomplete : ¬ ∃ init m, q.queue[p.index]? = some (init ++ [Packet.customWord m])) :
    s.resolved expire p q
      = if expire then s.reply (.error (.popTimedOut p.index)) else s.setPending (some p) := by
  have stays := putSeq_same s p.seq q named
  rcases resolve_cases expire p q with
    ⟨sub, here, hr, -⟩ | ⟨-, ⟨inactive, -⟩ | ⟨-, rfl, expired⟩ | ⟨-, rfl, waiting⟩⟩
  · have complete : isComplete sub = true := by simpa [ready, active] using hr
    obtain ⟨init, m, rfl⟩ := (isComplete_iff sub).mp complete
    exact absurd ⟨init, m, here⟩ incomplete
  · rw [active] at inactive
    cases inactive
  · rw [State.resolved, expired, stays]
    rfl
  · rw [State.resolved, waiting, stays]
    rfl

end Outcomes

theorem ready_complete (p : Pending) (init : SubSequence) (m : CustomWord) :
    ready p (init ++ [Packet.customWord m]) = true := by
  simp [ready, isMarker]

theorem ready_inactive {p : Pending} (inactive : p.readerActive = false) (sub : SubSequence) :
    ready p sub = true := by
  simp [ready, inactive]

/-! ### At issue -/

/-- The blocking command of a kind. -/
def waitCommand : WaitKind → Nat → Int → Option Seconds → Instr
  | .pop => .pop
  | .read => .read

theorem exec_waitCommand (kind : WaitKind) (h : Nat) (index : Int) (timeout : Option Seconds) (s : State) :
    exec (waitCommand kind h index timeout) s = guarded (decide (0 ≤ index)) .negativeIndex
      (s.commandOn h (fun q => resolve s.expire (pendingFor h kind index.toNat timeout q) q)) := by
  cases kind <;> rfl

theorem waitCommand_negative (kind : WaitKind) (h : Nat) {index : Int} (timeout : Option Seconds) (s : State)
    (negative : index < 0) : exec (waitCommand kind h index timeout) s = .refused .negativeIndex := by
  rw [exec_waitCommand, decide_eq_false (not_le.mpr negative), guarded_false]

section Issue

variable {s : State} {h : Nat} {q : Sequence} (live : s.HasLive h q) (kind : WaitKind) (n : Nat)
  (timeout : Option Seconds)

include live

theorem waitCommand_live : exec (waitCommand kind h n timeout) s
    = .next (s.resolved s.expire (pendingFor h kind n timeout q) q) := by
  have ignores : IgnoresLock (fun q => resolve s.expire (pendingFor h kind n timeout q) q) :=
    fun q who => resolve_lock s.expire (pendingFor h kind n timeout q) q who
  rw [exec_waitCommand, decide_eq_true (Int.natCast_nonneg n), guarded_true, Int.toNat_natCast, ignores.commandOn live]
  rfl

theorem waitCommand_inactive (disabled : q.reader.enabled = false) {sub : SubSequence}
    (here : q.queue[n]? = some sub) :
    exec (waitCommand kind h n timeout) s = .next ((s.putSeq h (takeAt kind n q)).reply (.sub sub)) := by
  rw [waitCommand_live live, resolved_ready s.expire here (ready_inactive disabled sub)]
  rfl

theorem waitCommand_outOfRange (disabled : q.reader.enabled = false) (beyond : q.queue.length ≤ n) :
    exec (waitCommand kind h n timeout) s
      = .next (s.reply (.error (.popIndexOutOfRange n q.queue.length))) := by
  rw [waitCommand_live live, resolved_outOfRange s.expire live.named disabled beyond]
  rfl

theorem waitCommand_complete {init : SubSequence} {m : CustomWord}
    (here : q.queue[n]? = some (init ++ [Packet.customWord m])) : exec (waitCommand kind h n timeout) s
      = .next ((s.putSeq h (takeAt kind n q)).reply (.sub (init ++ [Packet.customWord m]))) := by
  rw [waitCommand_live live, resolved_ready s.expire here (ready_complete _ init m)]
  rfl

theorem waitCommand_blocked (enabled : q.reader.enabled = true)
    (incomplete : ¬ ∃ init m, q.queue[n]? = some (init ++ [Packet.customWord m])) :
    exec (waitCommand kind h n timeout) s = .next (if s.expire then s.reply (.error (.popTimedOut n))
      else s.setPending (some ⟨h, kind, n, true, timeout.getD q.timeout⟩)) := by
  rw [waitCommand_live live, resolved_blocked s.expire live.named enabled incomplete, ← enabled]
  rfl

end Issue

/-- Settles O28, by the outcomes without a reader active. -/
theorem popWithoutReader : Obligations.PopWithoutReader := by
  intro s h n q timeout live disabled
  exact ⟨fun _ here => waitCommand_inactive live .pop n timeout disabled here,
    waitCommand_outOfRange live .pop n timeout disabled⟩

/-- Settles O29, by the outcomes with a reader active and the guard on the index. -/
theorem popWithReader : Obligations.PopWithReader := by
  refine ⟨fun s h n q timeout live enabled => ?issued,
    fun s h n timeout negative => waitCommand_negative .pop h timeout s negative⟩
  case issued =>
    have blocked := waitCommand_blocked live .pop n timeout enabled
    refine ⟨fun _ _ here => waitCommand_complete live .pop n timeout here, fun incomplete expires => ?_,
      fun incomplete waits => ?_⟩
    · exact (blocked incomplete).trans (by rw [if_pos expires])
    · exact (blocked incomplete).trans (by rw [waits]; rfl)

/-- Settles O30: the outcomes of `POP`, where what `READ` takes leaves the Sequence as it was. -/
theorem readKeepsQueue : Obligations.ReadKeepsQueue := by
  intro s h n q timeout live
  have stays : s.putSeq h (takeAt .read n q) = s := putSeq_same s h q live.named
  refine ⟨fun sub disabled here => ?inactive, waitCommand_outOfRange live .read n timeout,
    fun init m _ here => ?complete, fun enabled incomplete => ?blocked,
    fun x negative => waitCommand_negative .read h timeout s negative⟩
  case inactive => exact (waitCommand_inactive live .read n timeout disabled here).trans (by rw [stays])
  case complete => exact (waitCommand_complete live .read n timeout here).trans (by rw [stays])
  case blocked =>
    exact (waitCommand_blocked live .read n timeout enabled incomplete).trans (apply_ite Host.Outcome.next _ _ _)

/-! ### At a later check -/

section Check

variable {s : State} {k : Nat} {p : Pending} {q : Sequence}

theorem setPending_setPending (s : State) (o o' : Option Pending) :
    (s.setPending o).setPending o' = s.setPending o' := by
  simp only [State.setPending, putCaller_putCaller, putCaller_issuer, putCaller_caller_self]

/-- Setting the command that is pending already changes nothing: the issuer has a record, since it is not idle. -/
theorem setPending_same (hp : (s.caller s.issuer).pending = some p) : s.setPending (some p) = s := by
  have recorded : s.issuer < s.callers.length := by
    by_contra beyond
    rw [caller_idle_beyond s s.issuer (Nat.le_of_not_lt beyond)] at hp
    cases hp
  have same : ({ s.caller s.issuer with pending := some p } : Caller) = s.caller s.issuer := by rw [← hp]
  rw [State.setPending, same, State.putCaller, State.caller, padSet_getD _ _ _ recorded]

variable (expire : Bool) (hp : (s.caller k).pending = some p) (named : s.seqs[p.seq]? = some q)
  (free : q.lock = none)

include hp named free

/-- A waiting caller's turn runs the lock body again, the command taken off the caller. -/
theorem takeTurn_caller_waiting :
    takeTurn (.caller k expire) s = .next (((s.underTurn k expire).setPending none).resolved expire p q) := by
  have ignores : IgnoresLock (resolve expire p) := resolve_lock expire p
  have rechecked : takeTurn (.caller k expire) s = (s.underTurn k expire).recheck p := by
    simp only [takeTurn, State.fetch, State.callerTurn, hp]
  rw [rechecked, State.recheck, underTurn_expire, ignores.locked _ (by simpa using named) free, State.resolved]

/-- Nothing complete at the index: the turn times out, or the command is put back on the caller. -/
theorem takeTurn_caller_blocked (active : p.readerActive = true)
    (incomplete : ¬ ∃ init m, q.queue[p.index]? = some (init ++ [Packet.customWord m])) :
    takeTurn (.caller k expire) s =
      .next (if expire then ((s.underTurn k expire).setPending none).reply (.error (.popTimedOut p.index))
        else s.underTurn k expire) := by
  rw [takeTurn_caller_waiting expire hp named free, resolved_blocked expire (by simpa using named) active incomplete,
    setPending_setPending, setPending_same (by simpa using hp)]

end Check

/-- Settles O31, by the outcomes of the lock body run again. -/
theorem pendingCheck : Obligations.PendingCheck := by
  intro s k expire p q hp active named free
  refine ⟨fun init m here => ?complete, takeTurn_caller_blocked true hp named free active,
    takeTurn_caller_blocked false hp named free active⟩
  case complete =>
    rw [takeTurn_caller_waiting expire hp named free, resolved_ready expire here (ready_complete p init m)]
    cases p.kind <;> rfl

end Sys2Proof.Machine
end

section
/-! SUPPORT. Completeness of a SubSequence (R160), receiving (R161, R162) and the marker check (R173). -/

namespace Sys2Proof.Machine

theorem isComplete_eq_false_iff (sub : SubSequence) :
    isComplete sub = false ↔ ¬ ∃ init m, sub = init ++ [Packet.customWord m] := by
  rw [← isComplete_iff, Bool.not_eq_true]

/-- A queue that is empty or ends in a complete SubSequence is not open. -/
theorem hasOpen_eq_false {queue : List SubSequence}
    (hq : queue = [] ∨ ∃ pre init m, queue = pre ++ [init ++ [Packet.customWord m]]) : hasOpen queue = false := by
  obtain rfl | ⟨pre, init, m, rfl⟩ := hq
  · exact hasOpen_nil
  · simp [isMarker]

theorem exec_isComplete {sub : SubSequence} (ranged : sub.all Packet.inRange = true) (s : State) :
    exec (.isComplete sub) s = .next (s.reply (.bool (isComplete sub))) := by
  simp only [exec, execIsComplete, ranged, guarded_true, State.finish]

/-- Settles O25: the flag is true exactly where the last packet is a CustomWord. -/
theorem isCompleteResult : Obligations.IsCompleteResult := by
  intro sub s ranged
  rw [exec_isComplete ranged]
  refine ⟨fun complete => ?_, fun incomplete => ?_⟩
  · rw [(isComplete_iff sub).mpr complete]
  · rw [(isComplete_eq_false_iff sub).mpr incomplete]

section Receive

variable {s : State} {h : Nat} {q : Sequence} (live : s.HasLive h q)

include live

theorem exec_receive {p : Packet} (ranged : p.inRange = true) :
    exec (.receive h p) s = .next ((s.putSeq h (receivePacket q p)).reply .done) := by
  have ignores : IgnoresLock (fun q => (receivePacket q p, .answer .done)) := fun _ _ => rfl
  simp only [exec, execReceive, ranged, guarded_true, ignores.commandOn live, State.conclude]

theorem exec_receiveWord (w : RawWord) :
    exec (.receiveWord h w) s = .next ((s.putSeq h (receiveWord q w)).reply .done) :=
  present_sequence (dec := decodeWord w) live

end Receive

/-- Settles O26, by what appending a packet does to a closed and to an open queue. -/
theorem receiveResult : Obligations.ReceiveResult := by
  intro s h q p live ranged
  rw [exec_receive live ranged, receivePacket]
  refine ⟨fun empty => ?_, fun pre init m complete => ?_, fun pre sub ends incomplete => ?_⟩
  · rw [empty, appendPacket_nil]
  · rw [appendPacket_closed _ _ (hasOpen_eq_false (.inr ⟨pre, init, m, complete⟩))]
  · rw [ends, appendPacket_open _ _ _ ((isComplete_eq_false_iff sub).mpr incomplete)]

/-- A word other than an OVF gives a packet within its ranges and leaves the counter. -/
theorem decodeWord_packet {w : RawWord} (hw : ctl w ≠ 0xF#4) (c : U32) :
    ∃ p, decodeWord w c = (some p, c) ∧ p.inRange = true := by
  obtain ⟨p, hp⟩ := Option.ne_none_iff_exists'.mp (mt (decodeWord_no_packet_iff w c).mp hw)
  have counter : (decodeWord w c).2 = c := by rw [decodeWord_counter, if_neg hw]
  exact ⟨p, Prod.ext hp counter, (decodeWord_one w).ranged c p hp⟩

/-- Settles O27, by what the Word Decoder gives for an OVF word and for any other. -/
theorem receiveWordResult : Obligations.ReceiveWordResult := by
  intro s h q w live
  have ovf_iff : ctl w = 0xF#4 ↔ w >>> 60 = 0xF#64 := ctl_eq_iff w 0xF#4
  rw [exec_receiveWord live, receiveWord]
  constructor
  · intro ovf
    rw [decodeWord_of_ovf (ovf_iff.mpr ovf)]
    rfl
  · intro other
    obtain ⟨p, decoded, ranged⟩ := decodeWord_packet (mt ovf_iff.mp other) q.tsSw
    rw [decoded]
    exact ⟨p, rfl, ranged, (exec_receive live ranged).symm, rfl⟩

theorem markerMatches_iff (sub : SubSequence) (expected : CustomWord) : markerMatches sub expected = true ↔
    ∃ init m, sub = init ++ [Packet.customWord m] ∧ markerEq m expected = true := by
  rcases eq_nil_or_snoc sub with rfl | ⟨init, p, rfl⟩
  · simp [markerMatches]
  · cases p <;> simp [markerMatches]

/-- R259: the snapshot is the end of the SubSequence, of length `DIAG_DEPTH` where it is that long. -/
theorem snapshot_length (sub : SubSequence) : (snapshot sub).length = min Config.diagDepth sub.length := by
  rw [snapshot, List.length_drop]
  omega

theorem exec_checkMarker {sub : SubSequence} {expected : CustomWord} (ranged : sub.all Packet.inRange = true)
    (expectedRanged : expected.inRange = true) (s : State) :
    exec (.checkMarker sub expected) s = .next (s.reply (if markerMatches sub expected then .done
      else .error (.controlMarkerMismatch expected sub.getLast? (snapshot sub)))) := by
  simp only [exec, execCheckMarker, ranged, expectedRanged, Bool.and_self, guarded_true, State.raise, State.finish]
  split <;> rfl

/-- Settles O35, by `markerMatches_iff` and the snapshot, which is a suffix. -/
theorem checkMarkerResult : Obligations.CheckMarkerResult := by
  intro sub expected s ranged expectedRanged
  rw [exec_checkMarker ranged expectedRanged]
  refine ⟨fun init m ends equal => ?matched, fun mismatch => ?mismatched⟩
  case matched => rw [if_pos ((markerMatches_iff sub expected).mpr ⟨init, m, ends, equal⟩)]
  case mismatched =>
    rw [if_neg (mt (markerMatches_iff sub expected).mp mismatch)]
    exact ⟨snapshot sub, List.drop_suffix _ _, snapshot_length sub, Nat.succ_pos _, rfl⟩

end Sys2Proof.Machine
end

section
/-! SUPPORT. Creation (R176), concatenation (R168), and the reader: its flag (R169, R170) and its agent's steps
(R171). -/

namespace Sys2Proof.Machine

theorem exec_newSequence (timeout : Option Seconds) (s : State) : exec (.newSequence timeout) s =
    guarded (timeoutOperand timeout).isPositive .timeoutNotPositive
      (.next (State.reply { s with seqs := s.seqs ++ [Sequence.fresh (timeoutOperand timeout)] }
        (.sequence s.seqs.length))) := rfl

theorem defaultTimeout_positive : 0 < Config.defaultTimeout.numerator := Int.natCast_succ_pos Config.timeoutParts.1

/-- Settles O36: the guard of the command tests the timeout, and TIMEOUT passes it. -/
theorem newSequenceResult : Obligations.NewSequenceResult := by
  refine ⟨defaultTimeout_positive, fun s => ⟨fun t positive => ?operand, ?default, fun t notPositive => ?refused⟩⟩
  case operand =>
    have passes : (timeoutOperand (some t)).isPositive = true := decide_eq_true positive
    rw [exec_newSequence, passes]
    rfl
  case default =>
    have passes : (timeoutOperand none).isPositive = true := decide_eq_true defaultTimeout_positive
    rw [exec_newSequence, passes]
    rfl
  case refused =>
    have fails : (timeoutOperand (some t)).isPositive = false := decide_eq_false (not_lt.mpr notPositive)
    rw [exec_newSequence, fails, guarded_false]

theorem exec_extend {s : State} {h other : Nat} {q o : Sequence} (ne : h ≠ other) (live : s.HasLive h q)
    (absorbed : s.seqs[other]? = some o) (unconsumed : o.consumed = false) : exec (.extend h other) s =
      .next (((s.putSeq other { o with consumed := true }).putSeq h (extendSequence q o)).reply .done) := by
  have ignores : IgnoresLock (fun q => (extendSequence q o, .answer .done)) := fun _ _ => rfl
  have named : (s.putSeq other { o with consumed := true }).seqs[h]? = some q := by
    rw [putSeq_seqs, List.getElem?_set_ne ne.symm, live.named]
  simp only [exec, execExtend, named_eq live.named live.unconsumed, named_eq absorbed unconsumed,
    ignores.locked _ named live.free, State.conclude]

/-- Settles O32, by what concatenation does to a queue with nothing, onto an open one and onto a closed one. -/
theorem extendResult : Obligations.ExtendResult := by
  intro s h other q o ne live named unconsumed absorbed outcome
  have extended : exec (.extend h other) s = outcome (concatQueues q.queue absorbed) :=
    exec_extend ne live named unconsumed
  rw [extended]
  refine ⟨fun empty => ?_, fun pre sub first rest ends incomplete nonempty => ?_, fun closed => ?_⟩
  · rw [empty, concatQueues_nil]
  · rw [ends, nonempty, concatQueues_open _ _ _ _ ((isComplete_eq_false_iff sub).mpr incomplete)]
  · rw [concatQueues_closed _ _ (hasOpen_eq_false closed)]

/-- Settles O34: both commands run the lock body that writes the flag. -/
theorem startStopReader : Obligations.StartStopReader := by
  intro s h q live
  have ignores (on : Bool) : IgnoresLock (fun q => (setEnabled on q, .answer .done)) := fun _ _ => rfl
  exact ⟨(ignores true).commandOn live, (ignores false).commandOn live⟩

section Agent

variable {s : State} {h : Nat} {q : Sequence} (answer : Readout) (named : s.seqs[h]? = some q)

include named

/-- ISSUE (R171). -/
theorem readerTurn_issue (idle : q.reader.phase = .idle) (enabled : q.reader.enabled = true) (free : q.lock = none) :
    s.readerTurn h answer = .next (s.putSeq h (issueReadout q)) := by
  have ignores : IgnoresLock (fun q => (issueReadout q, .quiet)) := fun _ _ => rfl
  simp only [State.readerTurn, named, idle, enabled, if_true, ignores.locked _ named free, State.conclude]

theorem readerTurn_stopped (idle : q.reader.phase = .idle) (disabled : q.reader.enabled = false) :
    s.readerTurn h answer = .next s := by
  simp [State.readerTurn, named, idle, disabled]

/-- RETURN (R171). -/
theorem readerTurn_return (reading : q.reader.phase = .reading) :
    s.readerTurn h answer = .next (s.putSeq h (returnReadout answer q)) := by
  simp only [State.readerTurn, named, reading]

/-- FOLD (R171). -/
theorem readerTurn_fold (folding : q.reader.phase = .folding) (free : q.lock = none) :
    s.readerTurn h answer = .next (s.putSeq h (foldBatch q)) := by
  have ignores : IgnoresLock (fun q => (foldBatch q, .quiet)) := fun _ _ => rfl
  simp only [State.readerTurn, named, folding, ignores.locked _ named free, State.conclude]

end Agent

/-- R246 (a): an answer without words is the empty batch. -/
theorem batch_of_no_words {answer : Readout} (wordless : ∀ ws, answer ≠ .words ws) : answer.batch = [] := by
  cases answer with
  | words ws => exact absurd rfl (wordless ws)
  | noData => rfl
  | idleTimeout => rfl

/-- Settles O37, phase by phase. -/
theorem readerAgentSteps : Obligations.ReaderAgentSteps := by
  intro s h q answer named fresh
  refine ⟨readerTurn_issue answer named, readerTurn_stopped answer named, fun ws reading words => ?words,
    fun reading wordless => ?wordless, readerTurn_fold answer named⟩
  case words =>
    subst words
    exact readerTurn_return _ named reading
  case wordless => exact batch_of_no_words wordless ▸ readerTurn_return answer named reading

end Sys2Proof.Machine
end

section
/-! SUPPORT. The stable sort of R203 and R222 is the library's insertion sort, so its order and its stability are the
library's. -/

namespace Sys2Proof.Machine

variable {α : Type} (before : α → α → Bool)

theorem stableInsert_eq_orderedInsert (a : α) (l : List α) :
    stableInsert before a l = l.orderedInsert (fun a b => before a b = true) a := by
  induction l with
  | nil => rfl
  | cons b rest ih => simp only [stableInsert, List.orderedInsert_cons, ih]

theorem stableSort_eq_insertionSort (l : List α) :
    stableSort before l = l.insertionSort (fun a b => before a b = true) := by
  induction l with
  | nil => rfl
  | cons a rest ih => rw [stableSort, ih, stableInsert_eq_orderedInsert, List.insertionSort_cons]

theorem stableSort_perm (l : List α) : (stableSort before l).Perm l := by
  rw [stableSort_eq_insertionSort]
  exact List.perm_insertionSort _ l

variable {before} (total : ∀ a b, before a b = true ∨ before b a = true)
  (trans : ∀ a b c, before a b = true → before b c = true → before a c = true)

include total trans

theorem stableSort_pairwise (l : List α) : (stableSort before l).Pairwise (fun a b => before a b = true) := by
  have : Std.Total (fun a b => before a b = true) := ⟨total⟩
  have : IsTrans α (fun a b => before a b = true) := ⟨trans⟩
  rw [stableSort_eq_insertionSort]
  exact List.pairwise_insertionSort _ l

/-- Stability: the sort keeps the order of elements that may all precede each other. -/
theorem stableSort_filter {p : α → Bool} (level : ∀ a b, p a = true → p b = true → before a b = true)
    (l : List α) : (stableSort before l).filter p = l.filter p := by
  have : Std.Total (fun a b => before a b = true) := ⟨total⟩
  have : IsTrans α (fun a b => before a b = true) := ⟨trans⟩
  have ordered : (l.filter p).Pairwise (fun a b => before a b = true) :=
    List.pairwise_of_forall_mem_list fun a ha b hb => level a b (List.of_mem_filter ha) (List.of_mem_filter hb)
  have kept : (l.filter p).Sublist (stableSort before l) := by
    rw [stableSort_eq_insertionSort]
    exact List.sublist_insertionSort ordered List.filter_sublist
  have keptFiltered : (l.filter p).Sublist ((stableSort before l).filter p) := by
    simpa only [List.filter_filter, Bool.and_self] using kept.filter p
  exact (keptFiltered.eq_of_length ((stableSort_perm before l).filter p).length_eq.symm).symm

end Sys2Proof.Machine
end

section
/-! SUPPORT. The sort of SQUASH (R203). -/

namespace Sys2Proof.Machine

theorem sortByMaster_perm (packets : List ChipData) : (sortByMaster packets).Perm packets := stableSort_perm _ packets

theorem notBelow_total (a b : ChipData) :
    decide (masterIdx b ≤ masterIdx a) = true ∨ decide (masterIdx a ≤ masterIdx b) = true := by
  simpa only [decide_eq_true_eq] using Nat.le_total _ _

theorem notBelow_trans (a b c : ChipData) (hab : decide (masterIdx b ≤ masterIdx a) = true)
    (hbc : decide (masterIdx c ≤ masterIdx b) = true) : decide (masterIdx c ≤ masterIdx a) = true :=
  decide_eq_true (Nat.le_trans (of_decide_eq_true hbc) (of_decide_eq_true hab))

theorem sortByMaster_descending (packets : List ChipData) :
    (sortByMaster packets).Pairwise (fun a b => masterIdx b ≤ masterIdx a) :=
  (stableSort_pairwise notBelow_total notBelow_trans packets).imp of_decide_eq_true

theorem sortByMaster_filter_key (packets : List ChipData) (k : Nat) :
    (sortByMaster packets).filter (fun p => decide (masterIdx p = k))
      = packets.filter (fun p => decide (masterIdx p = k)) := by
  refine stableSort_filter notBelow_total notBelow_trans (fun a b ha hb => ?_) packets
  have same : masterIdx b = masterIdx a := (of_decide_eq_true hb).trans (of_decide_eq_true ha).symm
  exact decide_eq_true same.le

/-- Settles O55, by the stable sort's own laws for the relation "no smaller key". -/
theorem squashSortIsStable : Obligations.SquashSortIsStable := fun packets =>
  ⟨sortByMaster_perm packets, sortByMaster_descending packets, sortByMaster_filter_key packets⟩

end Sys2Proof.Machine
end

section
/-! SUPPORT. `PASS` (R204) read from the back: the packets behind the first are merged already, and the first joins
them. -/

namespace Sys2Proof.Machine

/-- OR a hitmap into an accumulator (R204). -/
def orHitmap (p : ChipData) (x : U8) : ChipData := { p with hitmap := p.hitmap ||| x }

/-- Put a packet in front of merged packets: into the first of them if that has its key, else before it. -/
def joinFront (p : ChipData) : List ChipData → List ChipData
  | [] => [finalize p]
  | q :: out =>
    if masterIdx q = masterIdx p then finalize (orHitmap p q.hitmap) :: out else finalize p :: q :: out

@[simp] theorem masterIdx_finalize (p : ChipData) : masterIdx (finalize p) = masterIdx p := rfl

@[simp] theorem masterIdx_orHitmap (p : ChipData) (x : U8) : masterIdx (orHitmap p x) = masterIdx p := rfl

theorem orHitmap_orHitmap (p : ChipData) (x y : U8) : orHitmap (orHitmap p x) y = orHitmap p (x ||| y) := by
  simp only [orHitmap, BitVec.or_assoc]

theorem joinFront_finalize (p : ChipData) (out : List ChipData) : joinFront (finalize p) out = joinFront p out := by
  cases out <;> rfl

variable {p q : ChipData}

theorem joinFront_same (same : masterIdx q = masterIdx p) (out : List ChipData) :
    joinFront p (q :: out) = finalize (orHitmap p q.hitmap) :: out := if_pos same

theorem joinFront_other (other : masterIdx q ≠ masterIdx p) (out : List ChipData) :
    joinFront p (q :: out) = finalize p :: q :: out := if_neg other

/-- The first packet of a join has the key of the packet that joined. -/
theorem joinFront_head (p : ChipData) (out : List ChipData) :
    ∃ first rest, joinFront p out = first :: rest ∧ masterIdx first = masterIdx p := by
  cases out with
  | nil => exact ⟨_, _, rfl, rfl⟩
  | cons q out =>
    by_cases same : masterIdx q = masterIdx p
    · exact ⟨_, _, joinFront_same same out, rfl⟩
    · exact ⟨_, _, joinFront_other same out, rfl⟩

theorem joinFront_joinFront_other (other : masterIdx q ≠ masterIdx p) (out : List ChipData) :
    joinFront p (joinFront q out) = finalize p :: joinFront q out := by
  obtain ⟨first, rest, joined, key⟩ := joinFront_head q out
  rw [joined, joinFront_other (key ▸ other)]

/-- Two packets of one key may be merged before they join: the OR is associative. -/
theorem joinFront_joinFront_same (same : masterIdx q = masterIdx p) (out : List ChipData) :
    joinFront p (joinFront q out) = joinFront (orHitmap p q.hitmap) out := by
  cases out with
  | nil => exact joinFront_same (q := finalize q) same []
  | cons r out =>
    by_cases again : masterIdx r = masterIdx q
    · have joins : masterIdx r = masterIdx (orHitmap p q.hitmap) := again.trans same
      rw [joinFront_same again, joinFront_same (q := finalize (orHitmap q r.hitmap)) same, joinFront_same joins,
        orHitmap_orHitmap]
      rfl
    · have stays : masterIdx r ≠ masterIdx (orHitmap p q.hitmap) := fun joins => again (joins.trans same.symm)
      rw [joinFront_other again, joinFront_same (q := finalize q) same, joinFront_other stays]
      rfl

theorem pass_same (same : masterIdx q = masterIdx p) (rest : List ChipData) :
    pass (p :: q :: rest) = pass (orHitmap p q.hitmap :: rest) := if_neg (not_not.mpr same)

theorem pass_other (other : masterIdx q ≠ masterIdx p) (rest : List ChipData) :
    pass (p :: q :: rest) = finalize p :: pass (q :: rest) := if_pos other

theorem pass_cons (p : ChipData) (rest : List ChipData) : pass (p :: rest) = joinFront p (pass rest) := by
  induction rest generalizing p with
  | nil => rfl
  | cons q rest ih =>
    by_cases same : masterIdx q = masterIdx p
    · rw [pass_same same, ih, ih q, joinFront_joinFront_same same]
    · rw [pass_other same, ih q, joinFront_joinFront_other same]

theorem pass_append (left right : List ChipData) : pass (left ++ right) = left.foldr joinFront (pass right) := by
  induction left with
  | nil => rfl
  | cons p left ih => rw [List.cons_append, pass_cons, ih, List.foldr_cons]

end Sys2Proof.Machine
end

section
/-! SUPPORT. The parallel form (R205) and its equivalence to one pass (R206). -/

namespace Sys2Proof.Machine

/-- Merged packets join one by one as the packets they were merged from would have. -/
theorem foldr_joinFront_joinFront (p : ChipData) (merged out : List ChipData) :
    (joinFront p merged).foldr joinFront out = joinFront p (merged.foldr joinFront out) := by
  cases merged with
  | nil => exact joinFront_finalize p out
  | cons q merged =>
    by_cases same : masterIdx q = masterIdx p
    · rw [joinFront_same same, List.foldr_cons, joinFront_finalize, List.foldr_cons, joinFront_joinFront_same same]
    · rw [joinFront_other same, List.foldr_cons, joinFront_finalize]

theorem foldr_joinFront_pass (part out : List ChipData) :
    (pass part).foldr joinFront out = part.foldr joinFront out := by
  induction part with
  | nil => rfl
  | cons p part ih => rw [pass_cons, foldr_joinFront_joinFront, ih, List.foldr_cons]

/-- One pass over the passes of the parts is one pass over the parts, sorted or not. -/
theorem pass_flatMap_pass (parts : List (List ChipData)) : pass (parts.flatMap pass) = pass parts.flatten := by
  induction parts with
  | nil => rfl
  | cons part parts ih => rw [List.flatMap_cons, List.flatten_cons, pass_append, pass_append, ih, foldr_joinFront_pass]

theorem partitions_flatten {sizes : List Nat} {arr : List ChipData} (covers : sizes.sum = arr.length) :
    (partitions sizes arr).flatten = arr := by
  induction sizes generalizing arr with
  | nil => exact (List.eq_nil_of_length_eq_zero covers.symm).symm
  | cons n sizes ih =>
    have rest : sizes.sum = (arr.drop n).length := by
      rw [List.length_drop, ← covers, List.sum_cons, Nat.add_sub_cancel_left]
    rw [partitions, List.flatten_cons, ih rest, List.take_append_drop]

/-- Settles O56, by `pass_flatMap_pass`: only that the parts are contiguous and cover the array matters. -/
theorem parallelPassEquivalent : Obligations.ParallelPassEquivalent := by
  intro sizes arr covers _
  rw [passParallel, pass_flatMap_pass, partitions_flatten covers]

end Sys2Proof.Machine
end

section
/-! SUPPORT. What `PASS` makes of a descending array (R204, R207): one packet per key, merged from the packets of that
key. -/

namespace Sys2Proof.Machine

/-- The packet of a group (R204): the first one's fields, `bottom` 1 and the OR of the group's hitmaps. -/
def mergedGroup (first : ChipData) (rest : List ChipData) : ChipData :=
  { first with bottom := true, hitmap := rest.foldl (fun x p => x ||| p.hitmap) first.hitmap }

/-- Equal keys are one run: `PASS` makes one packet of them. -/
theorem pass_group {first : ChipData} {rest : List ChipData} (same : ∀ p ∈ rest, masterIdx p = masterIdx first) :
    pass (first :: rest) = [mergedGroup first rest] := by
  induction rest generalizing first with
  | nil => rfl
  | cons q rest ih =>
    obtain ⟨sameHead, sameRest⟩ := List.forall_mem_cons.mp same
    rw [pass_same sameHead, ih (first := orHitmap first q.hitmap) sameRest]
    rfl

theorem mem_keys_joinFront (p : ChipData) (out : List ChipData) (k : Nat) :
    k ∈ (joinFront p out).map masterIdx ↔ k = masterIdx p ∨ k ∈ out.map masterIdx := by
  cases out with
  | nil => simp [joinFront]
  | cons q out =>
    by_cases same : masterIdx q = masterIdx p
    · simp [joinFront_same same, same]
    · simp [joinFront_other same]

theorem filter_joinFront_other {p : ChipData} {k : Nat} (other : masterIdx p ≠ k) (out : List ChipData) :
    (joinFront p out).filter (fun q => decide (masterIdx q = k)) = out.filter (fun q => decide (masterIdx q = k)) := by
  cases out with
  | nil => simp [joinFront, other]
  | cons q out =>
    by_cases same : masterIdx q = masterIdx p
    · simp [joinFront_same same, same, other]
    · simp [joinFront_other same, List.filter_cons, other]

section Join

variable {p : ChipData} {out : List ChipData} (descending : out.Pairwise (fun a b => masterIdx b < masterIdx a))
  (above : ∀ q ∈ out, masterIdx q ≤ masterIdx p)

include descending above

theorem joinFront_descending : (joinFront p out).Pairwise (fun a b => masterIdx b < masterIdx a) := by
  cases out with
  | nil => exact List.pairwise_singleton _ _
  | cons q out =>
    obtain ⟨aboveHead, -⟩ := List.forall_mem_cons.mp above
    obtain ⟨headAbove, tail⟩ := List.pairwise_cons.mp descending
    by_cases same : masterIdx q = masterIdx p
    · rw [joinFront_same same]
      exact List.pairwise_cons.mpr ⟨fun r hr => same ▸ headAbove r hr, tail⟩
    · rw [joinFront_other same]
      have headBelow : masterIdx q < masterIdx p := Nat.lt_of_le_of_ne aboveHead same
      exact List.pairwise_cons.mpr
        ⟨List.forall_mem_cons.mpr ⟨headBelow, fun r hr => (headAbove r hr).trans headBelow⟩, descending⟩

/-- In descending order the packets of the key of `p` are at most the first, which `p` joins. -/
theorem filter_joinFront_same : (joinFront p out).filter (fun q => decide (masterIdx q = masterIdx p))
    = joinFront p (out.filter (fun q => decide (masterIdx q = masterIdx p))) := by
  cases out with
  | nil => simp [joinFront]
  | cons q out =>
    by_cases same : masterIdx q = masterIdx p
    · simp [joinFront_same same, same]
    · have joined := joinFront_descending descending above
      rw [joinFront_other same] at joined ⊢
      have none : (q :: out).filter (fun r => decide (masterIdx r = masterIdx p)) = [] := by
        refine List.filter_eq_nil_iff.mpr fun r hr => ?_
        have below : masterIdx r < masterIdx p := (List.pairwise_cons.mp joined).1 r hr
        simpa using below.ne
      rw [List.filter_cons_of_pos (by simp), none, joinFront]

end Join

theorem mem_keys_pass (arr : List ChipData) (k : Nat) : k ∈ (pass arr).map masterIdx ↔ k ∈ arr.map masterIdx := by
  induction arr with
  | nil => rfl
  | cons p rest ih => rw [pass_cons, mem_keys_joinFront, ih, List.map_cons, List.mem_cons]

section Descending

variable {arr : List ChipData}

theorem pass_below {p : ChipData} (above : ∀ q ∈ arr, masterIdx q ≤ masterIdx p) :
    ∀ o ∈ pass arr, masterIdx o ≤ masterIdx p := by
  intro o ho
  obtain ⟨q, hq, key⟩ := List.mem_map.mp ((mem_keys_pass arr _).mp (List.mem_map_of_mem ho))
  exact key ▸ above q hq

theorem pass_descending (descending : arr.Pairwise (fun a b => masterIdx b ≤ masterIdx a)) :
    (pass arr).Pairwise (fun a b => masterIdx b < masterIdx a) := by
  induction descending with
  | nil => exact List.Pairwise.nil
  | cons above _ ih => exact pass_cons _ _ ▸ joinFront_descending ih (pass_below above)

theorem pass_filter_key (descending : arr.Pairwise (fun a b => masterIdx b ≤ masterIdx a)) (k : Nat) :
    (pass arr).filter (fun p => decide (masterIdx p = k)) = pass (arr.filter (fun p => decide (masterIdx p = k))) := by
  induction descending with
  | nil => rfl
  | @cons p rest above tail ih =>
    rw [pass_cons]
    by_cases same : masterIdx p = k
    · subst same
      rw [filter_joinFront_same (pass_descending tail) (pass_below above), ih, List.filter_cons_of_pos (by simp),
        pass_cons]
    · rw [filter_joinFront_other same, ih, List.filter_cons_of_neg (by simpa using same)]

/-- R204: an output packet is the merge of the packets of its key. -/
theorem exists_group_of_mem_pass (descending : arr.Pairwise (fun a b => masterIdx b ≤ masterIdx a)) {o : ChipData}
    (ho : o ∈ pass arr) :
    ∃ first rest, arr.filter (fun p => decide (masterIdx p = masterIdx o)) = first :: rest
      ∧ o = mergedGroup first rest := by
  have merged : o ∈ pass (arr.filter (fun p => decide (masterIdx p = masterIdx o))) :=
    pass_filter_key descending _ ▸ List.mem_filter.mpr ⟨ho, decide_eq_true rfl⟩
  have keys : ∀ p ∈ arr.filter (fun p => decide (masterIdx p = masterIdx o)), masterIdx p = masterIdx o :=
    fun p hp => of_decide_eq_true (List.mem_filter.mp hp).2
  cases group : arr.filter (fun p => decide (masterIdx p = masterIdx o)) with
  | nil => exact absurd (group ▸ merged) List.not_mem_nil
  | cons first rest =>
    rw [group] at merged keys
    obtain ⟨firstKey, restKeys⟩ := List.forall_mem_cons.mp keys
    rw [pass_group fun p hp => (restKeys p hp).trans firstKey.symm] at merged
    exact ⟨first, rest, rfl, List.mem_singleton.mp merged⟩

/-- R207: as many packets as distinct keys. -/
theorem pass_length (descending : arr.Pairwise (fun a b => masterIdx b ≤ masterIdx a)) :
    (pass arr).length = (arr.map masterIdx).dedup.length := by
  have distinct : ((pass arr).map masterIdx).Nodup :=
    List.pairwise_map.mpr ((pass_descending descending).imp fun below => below.ne')
  have sameKeys : ((pass arr).map masterIdx).Perm (arr.map masterIdx).dedup :=
    (List.perm_ext_iff_of_nodup distinct (List.nodup_dedup _)).mpr fun k => by rw [mem_keys_pass, List.mem_dedup]
  rw [← sameKeys.length_eq, List.length_map]

end Descending

end Sys2Proof.Machine
end

section
/-! SUPPORT. SQUASH (R200-R202, R207): what holds of `PASS` of the sorted packets holds of the packets, and the count of
the smart-only ones. -/

namespace Sys2Proof.Machine

theorem smartCount_add_kept (packets : List ChipData) :
    smartCount packets + (packets.filter (fun p => !smartOnly p)).length = packets.length :=
  (List.length_eq_length_filter_add smartOnly).symm

/-- Settles O54, by what `PASS` makes of a descending array and the reordering and stability of the sort. -/
theorem squashMergesGroups : Obligations.SquashMergesGroups := by
  intro packets kept
  have descending := sortByMaster_descending kept
  have keys : ((sortByMaster kept).map masterIdx).Perm (kept.map masterIdx) := (sortByMaster_perm kept).map _
  refine ⟨pass_descending descending, fun k => ?occurs, fun o ho => ?merged, ?count, smartCount_add_kept packets⟩
  case occurs =>
    simp only [← List.mem_map]
    exact (mem_keys_pass _ k).trans keys.mem_iff
  case merged =>
    rw [← sortByMaster_filter_key]
    exact exists_group_of_mem_pass descending ho
  case count => exact (pass_length descending).trans keys.dedup.length_eq

/-- R201 in numbers: the low four bits of the hitmap are 0. -/
theorem smartOnly_eq (p : ChipData) : smartOnly p = decide (p.bottom = false ∧ p.hitmap.toNat % 16 = 0) := by
  have low : p.hitmap &&& 0xF#8 = 0#8 ↔ p.hitmap.toNat % 16 = 0 := by
    rw [← BitVec.toNat_inj, BitVec.toNat_and]
    exact Eq.congr_left (Nat.and_two_pow_sub_one_eq_mod p.hitmap.toNat 4)
  simp only [smartOnly, low, Bool.decide_and, Bool.decide_eq_false]

theorem smartCount_eq (packets : List ChipData) :
    smartCount packets = (packets.filter (fun p => decide (p.bottom = false ∧ p.hitmap.toNat % 16 = 0))).length := by
  simp only [smartCount, ← smartOnly_eq]

theorem exec_squash {packets : List ChipData} (ranged : packets.all ChipData.inRange = true) (strict : Bool)
    (s : State) : exec (.squash packets strict) s =
      .next (s.reply (if strict && decide (0 < smartCount packets)
        then .error (.strictSmartReadout (smartCount packets))
        else .squashed (squash packets) (smartCount packets))) := by
  simp only [exec, execSquash, ranged, guarded_true, State.raise, State.finish]
  split <;> rfl

/-- Settles O53, by the count in numbers and the two cases of the command's test. -/
theorem squashResult : Obligations.SquashResult := by
  intro packets strict s ranged
  rw [← smartCount_eq, exec_squash ranged]
  refine ⟨fun isStrict occurs => ?raised, fun passes => ?returned⟩
  case raised => rw [if_pos (by simp [isStrict, occurs])]
  case returned =>
    have clear : ¬ (strict && decide (0 < smartCount packets)) = true := by
      obtain lenient | absent := passes
      · simp [lenient]
      · simp [absent]
    rw [if_neg clear]

end Sys2Proof.Machine
end

section
/-! SUPPORT. The windows of the classifier (R223, R224) as propositions, and its list of accepted timestamps, of which
only the members count. -/

namespace Sys2Proof.Machine

variable {times accepted accepted' : List U32} {tsDelta t x : U32} {tol : Tolerance} {lo hi : Int}

theorem inWindow_iff : inWindow times lo hi = true ↔ ∃ x ∈ times, lo ≤ (x.toNat : Int) ∧ (x.toNat : Int) ≤ hi := by
  simp only [inWindow, List.any_eq_true, Bool.and_eq_true, decide_eq_true_eq]

theorem foundFe_congr (same : ∀ x, x ∈ accepted ↔ x ∈ accepted') :
    foundFe accepted tsDelta tol t = foundFe accepted' tsDelta tol t := by
  rw [Bool.eq_iff_iff]
  simp only [foundFe, inWindow_iff, same]

theorem mem_accept : x ∈ accept t accepted ↔ x = t ∨ x ∈ accepted := by
  rw [accept, stableInsert_eq_orderedInsert, List.mem_orderedInsert]

theorem tagOf_eq_ambiguous : ∀ {tp fe : Bool}, tagOf tp fe = .ambiguous ↔ tp = true ∧ fe = true := by decide

theorem tagOf_eq_risingEdge : ∀ {tp fe : Bool}, tagOf tp fe = .risingEdge ↔ tp = true ∧ ¬ fe = true := by decide

theorem tagOf_eq_fallingEdge : ∀ {tp fe : Bool}, tagOf tp fe = .fallingEdge ↔ ¬ tp = true ∧ fe = true := by decide

theorem tagOf_eq_isolated : ∀ {tp fe : Bool}, tagOf tp fe = .isolated ↔ ¬ tp = true ∧ ¬ fe = true := by decide

end Sys2Proof.Machine
end

section
/-! SUPPORT. The order of one lane (R222): by time, then by place. -/

namespace Sys2Proof.Machine

/-- The hits of one lane with their places, in input order. -/
def laneHits (hits : List ChipData) (lane : Nat) : List (ChipData × Nat) :=
  hits.zipIdx.filter (fun x => decide (x.1.ser.toNat = lane))

/-- `y` is processed before `x`: earlier in time, or equal in time and earlier in the input (R222). -/
def precedes (y x : ChipData × Nat) : Bool :=
  decide (y.1.tsExt.toNat < x.1.tsExt.toNat ∨ (y.1.tsExt = x.1.tsExt ∧ y.2 < x.2))

variable {x y : ChipData × Nat}

theorem precedes_irrefl (x : ChipData × Nat) : precedes x x = false := by simp [precedes]

theorem precedes_asymm (before : precedes y x = true) : precedes x y = false := by
  simp only [precedes, decide_eq_true_eq, decide_eq_false_iff_not] at before ⊢
  obtain earlier | ⟨tie, first⟩ := before
  · rintro (later | ⟨tie, -⟩)
    · omega
    · exact earlier.ne (congrArg BitVec.toNat tie.symm)
  · rintro (later | ⟨-, last⟩)
    · exact later.ne (congrArg BitVec.toNat tie.symm)
    · omega

theorem zipIdx_places_increasing (hits : List ChipData) : hits.zipIdx.Pairwise (fun y x => y.2 < x.2) := by
  rw [← List.pairwise_map (f := Prod.snd) (R := (· < ·)), List.zipIdx_map_snd]
  exact List.pairwise_lt_range'

theorem laneHits_places_increasing (hits : List ChipData) (lane : Nat) :
    (laneHits hits lane).Pairwise (fun y x => y.2 < x.2) := (zipIdx_places_increasing hits).filter _

theorem mem_laneHits {hits : List ChipData} {lane : Nat} :
    x ∈ laneHits hits lane ↔ hits[x.2]? = some x.1 ∧ x.1.ser.toNat = lane := by
  simp only [laneHits, List.mem_filter, List.mem_zipIdx_iff_getElem?, decide_eq_true_eq]

theorem laneHits_map_fst (hits : List ChipData) (lane : Nat) :
    (laneHits hits lane).map Prod.fst = hits.filter (fun q => decide (q.ser.toNat = lane)) := by
  conv_rhs => rw [← List.zipIdx_map_fst 0 hits, List.filter_map]
  rfl

theorem laneOrder_perm (hits : List ChipData) (lane : Nat) : (laneOrder hits lane).Perm (laneHits hits lane) :=
  stableSort_perm _ _

theorem notLater_total (y x : ChipData × Nat) :
    decide (y.1.tsExt.toNat ≤ x.1.tsExt.toNat) = true ∨ decide (x.1.tsExt.toNat ≤ y.1.tsExt.toNat) = true := by
  simpa only [decide_eq_true_eq] using Nat.le_total _ _

theorem notLater_trans (z y x : ChipData × Nat) (hzy : decide (z.1.tsExt.toNat ≤ y.1.tsExt.toNat) = true)
    (hyx : decide (y.1.tsExt.toNat ≤ x.1.tsExt.toNat) = true) : decide (z.1.tsExt.toNat ≤ x.1.tsExt.toNat) = true :=
  decide_eq_true (Nat.le_trans (of_decide_eq_true hzy) (of_decide_eq_true hyx))

theorem laneOrder_filter_time (hits : List ChipData) (lane : Nat) (t : U32) :
    (laneOrder hits lane).filter (fun x => decide (x.1.tsExt = t))
      = (laneHits hits lane).filter (fun x => decide (x.1.tsExt = t)) := by
  refine stableSort_filter notLater_total notLater_trans (fun y x hy hx => ?_) _
  have tie : y.1.tsExt = x.1.tsExt := (of_decide_eq_true hy).trans (of_decide_eq_true hx).symm
  exact decide_eq_true (congrArg BitVec.toNat tie).le

/-- R222: the sort puts the hits in order of time, and its stability orders those of one time by their places. -/
theorem laneOrder_pairwise (hits : List ChipData) (lane : Nat) :
    (laneOrder hits lane).Pairwise (fun y x => precedes y x = true) := by
  refine List.pairwise_iff_forall_sublist.mpr fun {y x} pair => decide_eq_true ?_
  have notLater : y.1.tsExt.toNat ≤ x.1.tsExt.toNat := of_decide_eq_true
    (List.pairwise_iff_forall_sublist.mp (stableSort_pairwise notLater_total notLater_trans _) pair)
  refine notLater.lt_or_eq.imp_right fun same => ?_
  have tie : y.1.tsExt = x.1.tsExt := BitVec.eq_of_toNat_eq same
  have tied := pair.filter (fun z => decide (z.1.tsExt = x.1.tsExt))
  simp only [laneOrder_filter_time, List.filter_cons, tie, decide_true, if_true, List.filter_nil] at tied
  exact ⟨tie, List.pairwise_iff_forall_sublist.mp ((laneHits_places_increasing hits lane).filter _) tied⟩

end Sys2Proof.Machine
end

section
/-! SUPPORT. The loop of R220 over one lane in closed form: what is accepted when a hit is tagged are the hits before it
that find a test pulse. -/

namespace Sys2Proof.Machine

variable (tps : List U32) (tsDelta : U32) (tol : Tolerance)

/-- The timestamps that the loop accepts of some hits (R224). -/
def acceptedTimes (placed : List (ChipData × Nat)) : List U32 :=
  (placed.filter (fun y => foundTp tps tol y.1.tsExt)).map (fun y => y.1.tsExt)

/-- The timestamps accepted of the hits `placed` of a lane when the loop comes to the hit `x`. -/
def acceptedBefore (placed : List (ChipData × Nat)) (x : ChipData × Nat) : List U32 :=
  acceptedTimes tps tol (placed.filter (fun y => precedes y x))

/-- The tag of the hit `x` among the hits `placed` of its lane, by the two windows (R223, R224). -/
def windowTag (placed : List (ChipData × Nat)) (x : ChipData × Nat) : Tag :=
  tagOf (foundTp tps tol x.1.tsExt) (foundFe (acceptedBefore tps tol placed x) tsDelta tol x.1.tsExt)

variable {tps tsDelta tol}

theorem mem_acceptedTimes {placed : List (ChipData × Nat)} {t : U32} :
    t ∈ acceptedTimes tps tol placed ↔ ∃ y ∈ placed, foundTp tps tol y.1.tsExt = true ∧ y.1.tsExt = t := by
  simp only [acceptedTimes, List.mem_map, List.mem_filter, and_assoc]

theorem windowTag_perm {placed placed' : List (ChipData × Nat)} (same : placed.Perm placed') (x : ChipData × Nat) :
    windowTag tps tsDelta tol placed x = windowTag tps tsDelta tol placed' x :=
  congrArg (tagOf _) (foundFe_congr fun t => by
    simp only [acceptedBefore, mem_acceptedTimes, List.mem_filter, same.mem_iff])

/-- In processing order, what precedes a hit stands in front of it. -/
theorem filter_precedes_of_pairwise {done rest : List (ChipData × Nat)} {x : ChipData × Nat}
    (ordered : (done ++ x :: rest).Pairwise (fun y x => precedes y x = true)) :
    (done ++ x :: rest).filter (fun y => precedes y x) = done := by
  obtain ⟨-, tail, across⟩ := List.pairwise_append.mp ordered
  have front : ∀ y ∈ done, precedes y x = true := fun y hy => across y hy x List.mem_cons_self
  have back : ∀ y ∈ rest, ¬ precedes y x = true := fun y hy =>
    Bool.not_eq_true _ ▸ precedes_asymm (List.rel_of_pairwise_cons tail hy)
  rw [List.filter_append, List.filter_eq_self.mpr front, List.filter_cons_of_neg (by simp [precedes_irrefl]),
    List.filter_eq_nil_iff.mpr back, List.append_nil]

theorem mem_acceptedTimes_concat {done : List (ChipData × Nat)} {accepted : List U32}
    (holds : ∀ t, t ∈ accepted ↔ t ∈ acceptedTimes tps tol done) (x : ChipData × Nat) (t : U32) :
    t ∈ (if foundTp tps tol x.1.tsExt then accept x.1.tsExt accepted else accepted)
      ↔ t ∈ acceptedTimes tps tol (done ++ [x]) := by
  by_cases found : foundTp tps tol x.1.tsExt = true
  · simp [acceptedTimes, found, mem_accept, holds, or_comm]
  · simp [acceptedTimes, found, holds]

/-- The loop started after the hits `done`, with what it accepted of them. -/
theorem tagLane_eq_map (rest done : List (ChipData × Nat)) (accepted : List U32)
    (holds : ∀ t, t ∈ accepted ↔ t ∈ acceptedTimes tps tol done)
    (ordered : (done ++ rest).Pairwise (fun y x => precedes y x = true)) :
    tagLane tps tsDelta tol accepted rest = rest.map (fun x => (x.2, windowTag tps tsDelta tol (done ++ rest) x)) := by
  induction rest generalizing done accepted with
  | nil => rfl
  | cons x rest ih =>
    have tag : tagOf (foundTp tps tol x.1.tsExt) (foundFe accepted tsDelta tol x.1.tsExt)
        = windowTag tps tsDelta tol (done ++ x :: rest) x := by
      rw [windowTag, acceptedBefore, filter_precedes_of_pairwise ordered, foundFe_congr holds]
    have shift : done ++ x :: rest = (done ++ [x]) ++ rest := by simp
    rw [tagLane, List.map_cons, tag, ih (done ++ [x]) _ (mem_acceptedTimes_concat holds x) (shift ▸ ordered), ← shift]

theorem tagLane_laneOrder (hits : List ChipData) (lane : Nat) : tagLane tps tsDelta tol [] (laneOrder hits lane)
    = (laneOrder hits lane).map (fun x => (x.2, windowTag tps tsDelta tol (laneHits hits lane) x)) := by
  rw [tagLane_eq_map (laneOrder hits lane) [] [] (fun _ => Iff.rfl) (laneOrder_pairwise hits lane)]
  simp only [List.nil_append, windowTag_perm (laneOrder_perm hits lane)]

end Sys2Proof.Machine
end

section
/-! SUPPORT. CLASSIFY (R220, R225, R226): the tags of all lanes, back in input order. -/

namespace Sys2Proof.Machine

theorem sortedAscending_iff (times : List U32) :
    sortedAscending times = true ↔ times.Pairwise (fun a b => a.toNat ≤ b.toNat) := by
  have trans : IsTrans U32 (fun a b => a.toNat ≤ b.toNat) := ⟨fun _ _ _ => Nat.le_trans⟩
  rw [← List.isChain_iff_pairwise]
  induction times using sortedAscending.induct with
  | case1 => simp [sortedAscending]
  | case2 a => simp [sortedAscending]
  | case3 a b rest ih => simp [sortedAscending, List.isChain_cons_cons, ih]

variable {tps : List U32} {tsDelta : U32} {tol : Tolerance} {hits : List ChipData}

/-- The first `n` lanes hold the hits of those lanes. -/
theorem flatMap_laneHits_perm (hits : List ChipData) (n : Nat) : ((List.range n).flatMap (laneHits hits)).Perm
    (hits.zipIdx.filter (fun x => decide (x.1.ser.toNat < n))) := by
  induction n with
  | zero => simp
  | succ n ih =>
    have below : (hits.zipIdx.filter (fun x => decide (x.1.ser.toNat < n + 1))).filter
        (fun x => decide (x.1.ser.toNat < n)) = hits.zipIdx.filter (fun x => decide (x.1.ser.toNat < n)) := by
      rw [List.filter_filter]
      exact List.filter_congr fun x _ => by grind
    have last : (hits.zipIdx.filter (fun x => decide (x.1.ser.toNat < n + 1))).filter
        (fun x => !decide (x.1.ser.toNat < n)) = laneHits hits n := by
      rw [List.filter_filter]
      exact List.filter_congr fun x _ => by grind
    rw [List.range_succ, List.flatMap_append, List.flatMap_singleton, ← last]
    exact (ih.append_right _).trans (below ▸ List.filter_append_perm _ _)

theorem tagAll_perm (lanes : ∀ q ∈ hits, q.ser.toNat < 16) : (tagAll tps hits tsDelta tol).Perm
    (hits.zipIdx.map (fun x => (x.2, windowTag tps tsDelta tol (laneHits hits x.1.ser.toNat) x))) := by
  have everyHit : hits.zipIdx.filter (fun x => decide (x.1.ser.toNat < 16)) = hits.zipIdx :=
    List.filter_eq_self.mpr fun x hx => decide_eq_true (lanes x.1 (List.fst_mem_of_mem_zipIdx hx))
  have eachLane (lane : Nat) : (tagLane tps tsDelta tol [] (laneOrder hits lane)).Perm
      ((laneHits hits lane).map (fun x => (x.2, windowTag tps tsDelta tol (laneHits hits x.1.ser.toNat) x))) := by
    rw [tagLane_laneOrder]
    refine ((laneOrder_perm hits lane).map _).trans (.of_eq (List.map_congr_left fun x hx => ?_))
    rw [(mem_laneHits.mp hx).2]
  refine (List.Perm.flatMap_left _ fun lane _ => eachLane lane).trans ?_
  rw [← List.map_flatMap]
  exact (everyHit ▸ flatMap_laneHits_perm hits 16).map _

/-- A sort by place of tags whose places are distinct leaves one order (R226). -/
theorem sortByPlace_eq_of_perm {tags placed : List (Nat × Tag)} (same : tags.Perm placed)
    (increasing : placed.Pairwise (fun a b => a.1 < b.1)) :
    stableSort (fun a b => decide (a.1 ≤ b.1)) tags = placed := by
  have sorted := stableSort_perm (fun a b : Nat × Tag => decide (a.1 ≤ b.1)) tags
  have ascending := stableSort_pairwise (before := fun a b : Nat × Tag => decide (a.1 ≤ b.1))
    (fun a b => by simpa only [decide_eq_true_eq] using Nat.le_total a.1 b.1)
    (fun _ _ _ hab hbc => decide_eq_true (Nat.le_trans (of_decide_eq_true hab) (of_decide_eq_true hbc))) tags
  have distinct : (placed.map Prod.fst).Nodup := List.pairwise_map.mpr (increasing.imp Nat.ne_of_lt)
  refine List.Perm.eq_of_pairwise (fun a b ha hb hab hba => ?_) ascending
    (increasing.imp fun before => decide_eq_true before.le) (sorted.trans same)
  exact List.inj_on_of_nodup_map distinct ((sorted.trans same).mem_iff.mp ha) hb
    (Nat.le_antisymm (of_decide_eq_true hab) (of_decide_eq_true hba))

/-- R220, R226: every hit's tag by the two windows among the hits of its lane, in input order. -/
theorem classify_eq_map (lanes : ∀ q ∈ hits, q.ser.toNat < 16) : classify tps hits tsDelta tol
    = hits.zipIdx.map (fun x => windowTag tps tsDelta tol (laneHits hits x.1.ser.toNat) x) := by
  rw [classify, sortByPlace_eq_of_perm (tagAll_perm lanes) (List.pairwise_map.mpr (zipIdx_places_increasing hits)),
    List.map_map]
  rfl

theorem exec_classify (s : State) : exec (.classify tps hits tsDelta tol) s =
    guarded (sortedAscending tps) .tpsNotSorted (guarded (hits.all ChipData.inRange) .fieldOutOfRange
      (.next (s.reply (.tags (classify tps hits tsDelta tol))))) := rfl

theorem lanes_of_inRange (ranged : hits.all ChipData.inRange = true) : ∀ q ∈ hits, q.ser.toNat < 16 := by
  intro q hq
  have fields := List.all_eq_true.mp ranged q hq
  simp only [ChipData.inRange, Bool.and_eq_true, decide_eq_true_eq] at fields
  exact fields.2

/-- Settles O57, by the two preconditions of the command and the tags in closed form. -/
theorem classifyResult : Obligations.ClassifyResult := by
  intro tps hits tsDelta tol s
  rw [← sortedAscending_iff, exec_classify]
  refine ⟨fun sorted ranged => ⟨?tags, ?length⟩, fun unsorted => ?refused⟩
  case tags => rw [sorted, ranged, guarded_true, guarded_true]
  case length => rw [classify_eq_map (lanes_of_inRange ranged), List.length_map, List.length_zipIdx]
  case refused => rw [Bool.eq_false_of_not_eq_true unsorted, guarded_false]

end Sys2Proof.Machine
end

section
/-! SUPPORT. The two windows of R223 in closed form, and the independence of the lanes (R227). -/

namespace Sys2Proof.Machine

variable {tps : List U32} {tsDelta : U32} {tol : Tolerance} {hits : List ChipData}

theorem foundTp_iff {t : U32} : foundTp tps tol t = true ↔ ∃ x ∈ tps,
    (t.toNat : Int) - 5 - tol.tpN.toInt ≤ (x.toNat : Int) ∧ (x.toNat : Int) ≤ (t.toNat : Int) - 5 + tol.tpP.toInt :=
  inWindow_iff

/-- The accepted hits that the hit `p` at place `n` follows (R223, R224). -/
theorem foundFe_laneHits_iff {p : ChipData} {n : Nat} :
    foundFe (acceptedBefore tps tol (laneHits hits p.ser.toNat) (p, n)) tsDelta tol p.tsExt = true
      ↔ ∃ (m : Nat) (q : ChipData), hits[m]? = some q ∧ q.ser = p.ser ∧ foundTp tps tol q.tsExt = true
        ∧ (q.tsExt.toNat < p.tsExt.toNat ∨ (q.tsExt = p.tsExt ∧ m < n))
        ∧ (p.tsExt.toNat : Int) - (tsDelta.toNat : Int) - tol.feN.toInt ≤ (q.tsExt.toNat : Int)
        ∧ (q.tsExt.toNat : Int) ≤ (p.tsExt.toNat : Int) - (tsDelta.toNat : Int) + tol.feP.toInt := by
  simp only [foundFe, inWindow_iff, acceptedBefore, mem_acceptedTimes, List.mem_filter, mem_laneHits, precedes,
    decide_eq_true_eq, BitVec.toNat_inj]
  constructor
  · rintro ⟨_, ⟨⟨q, m⟩, ⟨⟨place, lane⟩, before⟩, found, rfl⟩, window⟩
    exact ⟨m, q, place, lane, found, before, window⟩
  · rintro ⟨m, q, place, lane, found, before, window⟩
    exact ⟨q.tsExt, ⟨(q, m), ⟨⟨place, lane⟩, before⟩, found, rfl⟩, window⟩

theorem getElem?_classify (lanes : ∀ q ∈ hits, q.ser.toNat < 16) {n : Nat} {p : ChipData} (hp : hits[n]? = some p) :
    (classify tps hits tsDelta tol)[n]? = some (windowTag tps tsDelta tol (laneHits hits p.ser.toNat) (p, n)) := by
  rw [classify_eq_map lanes, List.getElem?_map, List.getElem?_zipIdx, hp, Nat.zero_add]
  rfl

/-- Settles O58, by the two windows of the tag and what each of the four tags says of them. -/
theorem classifyTagsByWindows : Obligations.ClassifyTagsByWindows := by
  intro tps hits tsDelta tol n p lanes hp finds follows
  have test : foundTp tps tol p.tsExt = true ↔ finds p := foundTp_iff
  have edge : foundFe (acceptedBefore tps tol (laneHits hits p.ser.toNat) (p, n)) tsDelta tol p.tsExt = true
      ↔ follows := by
    simp only [foundFe_laneHits_iff, foundTp_iff, finds, follows]
  rw [getElem?_classify lanes hp]
  simp only [Option.some_inj, windowTag, tagOf_eq_ambiguous, tagOf_eq_risingEdge, tagOf_eq_fallingEdge,
    tagOf_eq_isolated, test, edge, and_self]

/-- The tags of one lane's hits as a function of these hits alone, in input order. -/
def laneTags (tps : List U32) (tsDelta : U32) (tol : Tolerance) (own : List ChipData) : List Tag :=
  own.zipIdx.map (windowTag tps tsDelta tol own.zipIdx)

theorem place_lt_iff {placed : List (ChipData × Nat)} (increasing : placed.Pairwise (fun y x => y.2 < x.2))
    {y x : (ChipData × Nat) × Nat} (hy : y ∈ placed.zipIdx) (hx : x ∈ placed.zipIdx) :
    y.1.2 < x.1.2 ↔ y.2 < x.2 := by
  obtain ⟨y, i⟩ := y
  obtain ⟨x, j⟩ := x
  obtain ⟨hi, rfl⟩ := List.getElem?_eq_some_iff.mp (List.mk_mem_zipIdx_iff_getElem?.mp hy)
  obtain ⟨hj, rfl⟩ := List.getElem?_eq_some_iff.mp (List.mk_mem_zipIdx_iff_getElem?.mp hx)
  have places : (placed.map Prod.snd).SortedLT := (List.pairwise_map.mpr increasing).sortedLT
  have order := places.getElem_lt_getElem_iff (i := i) (j := j) (hi := by rwa [List.length_map])
    (hj := by rwa [List.length_map])
  rwa [List.getElem_map, List.getElem_map] at order

/-- Only the order of the places counts: they may be numbered anew from 0. -/
theorem map_windowTag_eq_laneTags {placed : List (ChipData × Nat)}
    (increasing : placed.Pairwise (fun y x => y.2 < x.2)) :
    placed.map (windowTag tps tsDelta tol placed) = laneTags tps tsDelta tol (placed.map Prod.fst) := by
  have renumbered (x) (hx : x ∈ placed.zipIdx) : windowTag tps tsDelta tol (placed.zipIdx.map Prod.fst) x.1
      = windowTag tps tsDelta tol (placed.zipIdx.map (Prod.map Prod.fst id)) (Prod.map Prod.fst id x) := by
    have before : placed.zipIdx.filter (fun y => precedes y.1 x.1)
        = placed.zipIdx.filter (fun y => precedes (Prod.map Prod.fst id y) (Prod.map Prod.fst id x)) :=
      List.filter_congr fun y hy => by simp only [precedes, place_lt_iff increasing hy hx, Prod.map, id]
    simp only [windowTag, acceptedBefore, acceptedTimes, List.filter_map, List.map_map, Function.comp_def, before,
      Prod.map, id]
  calc placed.map (windowTag tps tsDelta tol placed)
      = placed.zipIdx.map (fun x => windowTag tps tsDelta tol (placed.zipIdx.map Prod.fst) x.1) := by
        rw [← Function.comp_def, ← List.map_map, List.zipIdx_map_fst]
    _ = laneTags tps tsDelta tol (placed.map Prod.fst) := by
        rw [laneTags, List.zipIdx_map, List.map_map]
        exact List.map_congr_left renumbered

theorem classify_lane_eq_laneTags (lanes : ∀ q ∈ hits, q.ser.toNat < 16) (lane : U8) :
    ((hits.zip (classify tps hits tsDelta tol)).filter (fun x => decide (x.1.ser = lane))).map (fun x => x.2)
      = laneTags tps tsDelta tol (hits.filter (fun q => decide (q.ser = lane))) := by
  have paired : hits.zip (classify tps hits tsDelta tol)
      = hits.zipIdx.map (fun x => (x.1, windowTag tps tsDelta tol (laneHits hits x.1.ser.toNat) x)) := by
    rw [← List.zip_map', List.zipIdx_map_fst, classify_eq_map lanes]
  calc ((hits.zip (classify tps hits tsDelta tol)).filter (fun x => decide (x.1.ser = lane))).map (fun x => x.2)
      = (laneHits hits lane.toNat).map (fun x => windowTag tps tsDelta tol (laneHits hits x.1.ser.toNat) x) := by
        simp only [paired, List.filter_map, List.map_map, Function.comp_def, laneHits, BitVec.toNat_inj]
    _ = (laneHits hits lane.toNat).map (windowTag tps tsDelta tol (laneHits hits lane.toNat)) :=
        List.map_congr_left fun x hx => by rw [(mem_laneHits.mp hx).2]
    _ = laneTags tps tsDelta tol (hits.filter (fun q => decide (q.ser = lane))) := by
        rw [map_windowTag_eq_laneTags (laneHits_places_increasing hits lane.toNat), laneHits_map_fst]
        simp only [BitVec.toNat_inj]

/-- Settles O59: the tags of a lane's hits are a function of these hits. -/
theorem laneIndependence : Obligations.LaneIndependence := by
  intro tps hits hits' tsDelta tol lane lanes lanes' same
  rw [classify_lane_eq_laneTags lanes, classify_lane_eq_laneTags lanes', same]

end Sys2Proof.Machine
end

section
/-! SUPPORT. Errors (R249): a command whose caller gets an error has done nothing but return it. -/

namespace Sys2Proof.Machine

variable {s t : State} {h : Nat}

/-- Of the endings of a lock body only an answer adds to the issuer's replies. -/
theorem ending_of_conclude_replies {e : Ending} {r : Reply}
    (added : ((s.conclude e).caller s.issuer).replies = r :: (s.caller s.issuer).replies) : e = .answer r := by
  cases e with
  | answer r' =>
    rw [State.conclude, reply_caller_self] at added
    rw [(List.cons.inj added).1]
  | wait p =>
    rw [State.conclude, setPending_caller_self] at added
    exact absurd added.symm (List.cons_ne_self _ _)
  | quiet => exact absurd added.symm (List.cons_ne_self _ _)

theorem eq_of_reply_replies {r r' : Reply}
    (added : ((s.reply r).caller s.issuer).replies = r' :: (s.caller s.issuer).replies) : r = r' :=
  Ending.answer.inj (ending_of_conclude_replies (e := .answer r) added)

/-- A lock body that leaves the Sequence as it is where it fails: the next state is the old one with the error
returned. -/
theorem locked_error {who : Agent} {body : Sequence → Sequence × Ending} {e : Error}
    (failed : ∀ q e, (body q).2 = .answer (.error e) → (body q).1 = q) (hx : s.locked h who body = .next t)
    (added : (t.caller s.issuer).replies = .error e :: (s.caller s.issuer).replies) : t = s.reply (.error e) := by
  obtain ⟨q, named, free, rfl⟩ := locked_next hx
  have ended := ending_of_conclude_replies added
  have unlocked : ({ (body { q with lock := some who }).1 with lock := none } : Sequence) = q := by
    rw [failed _ e ended]
    exact sequence_unlocked free
  rw [unlocked, ended, putSeq_same s h q named]
  rfl

theorem resolve_failed (expire : Bool) (p : Pending) (q : Sequence) (e : Error)
    (error : (resolve expire p q).2 = .answer (.error e)) : (resolve expire p q).1 = q := by
  rcases resolve_cases expire p q with ⟨sub, -, -, hr⟩ | ⟨-, ⟨-, hr⟩ | ⟨-, -, hr⟩ | ⟨-, -, hr⟩⟩
  · rw [hr] at error
    cases error
  all_goals rw [hr]

theorem exec_error {i : Instr} {e : Error} (hx : exec i s = .next t)
    (added : (t.caller s.issuer).replies = .error e :: (s.caller s.issuer).replies) : t = s.reply (.error e) := by
  cases exec_shape i s with
  | pure _ _ _ _ runs stops =>
    obtain ⟨r, hr⟩ := runs (wellFormed_of_next stops hx)
    obtain rfl := Host.Outcome.next.inj (hx.symm.trans hr)
    rw [eq_of_reply_replies added]
  | counter c dec _ _ _ _ runs =>
    obtain rfl := Host.Outcome.next.inj (hx.symm.trans runs)
    have packet : Reply.packet (dec (s.counter c)).1 = .error e :=
      eq_of_reply_replies (s := s.putCounter c _) (by rwa [putCounter_issuer, putCounter_replies])
    cases packet
  | body h body _ _ effect runs stops =>
    have ok := wellFormed_of_next stops hx
    obtain ⟨-, locked⟩ := commandOn_locked ((runs ok).symm.trans hx)
    exact locked_error (effect ok).failed locked added
  | extend h other is =>
    obtain ⟨q, o, -, -, -, rfl⟩ := extend_next (is ▸ hx)
    cases eq_of_reply_replies added
  | create x is =>
    rw [is] at hx
    obtain ⟨-, created⟩ := guarded_next hx
    obtain rfl := Host.Outcome.next.inj created
    cases eq_of_reply_replies added

/-- The check of a pending command that ends in an error takes the command off the caller and leaves every Sequence. -/
theorem recheck_error {p : Pending} {e : Error} (hx : s.recheck p = .next t)
    (added : (t.caller s.issuer).replies = .error e :: (s.caller s.issuer).replies) :
    t = (s.setPending none).reply (.error e) :=
  locked_error (resolve_failed s.expire p) hx (by simpa using added)

/-- Settles O43: at issue and at a later check the lock body leaves the Sequence where it fails, and `CHECK_MARKER`
names no Sequence. -/
theorem errorsChangeNoState : Obligations.ErrorsChangeNoState := by
  refine ⟨fun i s t e => exec_error, fun s t k expire e waits hx added => ?pending,
    fun sub expected s t => exec_pure rfl (by simp) (by simp)⟩
  case pending =>
    obtain ⟨p, hp⟩ := Option.ne_none_iff_exists'.mp waits
    simp only [takeTurn, State.fetch, State.callerTurn, hp] at hx
    rw [recheck_error hx added, reply_pending]
    exact ⟨rfl, by simp [setPending_pending]⟩

end Sys2Proof.Machine
end

section
/-! SUPPORT. When an instruction is refused (R247), and when it completes. -/

namespace Sys2Proof.Machine

variable {s : State} {i : Instr} {h other : Nat}

/-- `h` names a Sequence that an `EXTEND` has consumed (R247 (f)). -/
def State.HasConsumed (s : State) (h : Nat) : Prop := ∃ q, s.seqs[h]? = some q ∧ q.consumed = true

/-- A handle in range names a consumed Sequence, or one a command may run on. -/
theorem named_cases (hl : h < s.seqs.length) :
    (s.HasConsumed h ∧ s.named h = .error (.consumedSequence h))
      ∨ (¬ s.HasConsumed h ∧ ∃ q, s.named h = .ok q) := by
  have named : s.seqs[h]? = some s.seqs[h] := List.getElem?_eq_getElem hl
  cases hc : s.seqs[h].consumed with
  | true => exact .inl ⟨⟨_, named, hc⟩, by simp [State.named, named, hc]⟩
  | false => exact .inr ⟨by simp [State.HasConsumed, named, hc], _, named_eq named hc⟩

/-- A lock body on a Sequence that exists runs or finds the lock held. -/
theorem locked_not_refused (hl : h < s.seqs.length) {who : Agent} {body : Sequence → Sequence × Ending} :
    ¬ ∃ r, s.locked h who body = .refused r := by
  have named : s.seqs[h]? = some s.seqs[h] := List.getElem?_eq_getElem hl
  cases lock : s.seqs[h].lock <;> simp [State.locked, named, lock]

theorem commandOn_refused_iff (hl : h < s.seqs.length) {body : Sequence → Sequence × Ending} :
    (∃ r, s.commandOn h body = .refused r) ↔ s.HasConsumed h := by
  rcases named_cases hl with ⟨consumed, named⟩ | ⟨unconsumed, q, named⟩
  · exact iff_of_true ⟨.consumedSequence h, by simp only [State.commandOn, named]⟩ consumed
  · have runs : s.commandOn h body = s.locked h (.caller s.issuer) body := by simp only [State.commandOn, named]
    rw [runs]
    exact iff_of_false (locked_not_refused hl) unconsumed

theorem extend_refused_iff (hl : h < s.seqs.length) (ho : other < s.seqs.length) :
    (∃ r, exec (.extend h other) s = .refused r) ↔ s.HasConsumed h ∨ s.HasConsumed other := by
  rcases named_cases hl with ⟨consumed, named⟩ | ⟨unconsumed, q, named⟩
  · exact iff_of_true ⟨.consumedSequence h, by simp only [exec, execExtend, named]⟩ (.inl consumed)
  rcases named_cases ho with ⟨other_consumed, other_named⟩ | ⟨other_unconsumed, o, other_named⟩
  · exact iff_of_true ⟨.consumedSequence other, by simp only [exec, execExtend, named, other_named]⟩
      (.inr other_consumed)
  · simp only [exec, execExtend, named, other_named]
    exact iff_of_false (locked_not_refused (by simpa using hl)) (not_or.mpr ⟨unconsumed, other_unconsumed⟩)

theorem exec_refused_of_not_wellFormed (bad : i.wellFormed = false) : ∃ r, exec i s = .refused r := by
  cases exec_shape i s with
  | pure _ _ _ _ _ stops => exact stops bad
  | counter _ _ _ ok _ _ _ => simp [ok] at bad
  | body _ _ _ _ _ _ stops => exact stops bad
  | extend h other is => simp [is, Instr.wellFormed] at bad
  | create x is =>
    subst is
    have fails : (timeoutOperand x).isPositive = false := bad
    exact ⟨.timeoutNotPositive, by rw [exec_newSequence, fails, guarded_false]⟩

theorem exec_newSequence_next {x : Option Seconds} (ok : (Instr.newSequence x).wellFormed = true) :
    ∃ t, exec (.newSequence x) s = .next t := by
  have positive : (timeoutOperand x).isPositive = true := ok
  exact ⟨_, by rw [exec_newSequence, positive, guarded_true]⟩

theorem next_not_refused {t : State} (hx : exec i s = .next t) : ¬ ∃ r, exec i s = .refused r := by
  simp [hx]

/-- With operands that meet their preconditions only a consumed Sequence is refused. -/
theorem exec_refused_iff_consumed (ok : i.wellFormed = true) (exist : ∀ h ∈ handlesOf s.port i, h < s.seqs.length) :
    (∃ r, exec i s = .refused r) ↔ ∃ h ∈ handlesOf s.port i, s.HasConsumed h := by
  cases exec_shape i s with
  | pure _ here _ _ runs _ =>
    obtain ⟨r, hr⟩ := runs ok
    exact iff_of_false (next_not_refused hr) (by simp [here])
  | counter c dec here _ _ _ runs => exact iff_of_false (next_not_refused runs) (by simp [here])
  | body h body here _ _ runs _ =>
    rw [runs ok, commandOn_refused_iff (exist h (by simp [here])), here]
    simp
  | extend h other is =>
    subst is
    rw [extend_refused_iff (exist h (by simp [handlesOf])) (exist other (by simp [handlesOf]))]
    simp [handlesOf]
  | create x is =>
    subst is
    obtain ⟨t, hx⟩ := exec_newSequence_next ok
    exact iff_of_false (next_not_refused hx) (by simp [handlesOf])

/-- Settles O44: broken operands are refused whatever the state, and with good ones a command is refused exactly for a
consumed Sequence. -/
theorem refusedExactly : Obligations.RefusedExactly := by
  intro i s exist
  cases ok : i.wellFormed with
  | false => exact iff_of_true (exec_refused_of_not_wellFormed ok) (.inl rfl)
  | true => exact (exec_refused_iff_consumed ok exist).trans (by simp [State.HasConsumed])

/-- `EXTEND` completes on live Sequences, also where the two are one: marking it consumed leaves its lock free. -/
theorem extend_live {q o : Sequence} (live : s.HasLive h q) (other_live : s.HasLive other o) :
    ∃ t, exec (.extend h other) s = .next t := by
  obtain ⟨q', named, free⟩ :
      ∃ q', (s.putSeq other { o with consumed := true }).seqs[h]? = some q' ∧ q'.lock = none := by
    rw [putSeq_seqs]
    by_cases same : other = h
    · subst same
      exact ⟨_, List.getElem?_set_self (List.getElem?_eq_some_iff.mp other_live.named).1, other_live.free⟩
    · exact ⟨q, (List.getElem?_set_ne same).trans live.named, live.free⟩
  simp only [exec, execExtend, named_eq live.named live.unconsumed, named_eq other_live.named other_live.unconsumed,
    locked_eq named free]
  exact ⟨_, rfl⟩

/-- Settles O45, by the shape of the instruction: each of its lock bodies runs on a live Sequence. -/
theorem wellFormedLiveCompletes : Obligations.WellFormedLiveCompletes := by
  intro i s ok lives
  cases exec_shape i s with
  | pure _ _ _ _ runs _ =>
    obtain ⟨r, hr⟩ := runs ok
    exact ⟨_, hr⟩
  | counter _ _ _ _ _ _ runs => exact ⟨_, runs⟩
  | body h body here _ _ runs _ =>
    obtain ⟨q, live⟩ := lives h (by simp [here])
    exact ⟨_, (runs ok).trans (commandOn_live live)⟩
  | extend h other is =>
    subst is
    obtain ⟨q, live⟩ := lives h (by simp [handlesOf])
    obtain ⟨o, other_live⟩ := lives other (by simp [handlesOf])
    exact extend_live live other_live
  | create x is =>
    subst is
    exact exec_newSequence_next ok

end Sys2Proof.Machine
end

section
/-! SUPPORT. What an instruction may do to the counter of a Sequence (R257), from `sequence_next`. -/

namespace Sys2Proof.Machine

/-- Settles O47: of what a Sequence can become, a lock body that writes the counter is that of an OVF word, and an
extension adds the other's counter. -/
theorem counterWriters : Obligations.CounterWriters := by
  intro i s t h q q' hx hq hq' changed
  rcases sequence_next hx hq hq' with
    rfl | ⟨body, who, effect, -, rfl⟩ | ⟨other, o, c, is, absorbed, rfl⟩ | rfl
  · exact absurd rfl changed
  · obtain ⟨added, word⟩ := (effect.counter { q with lock := who }).resolve_left changed
    refine .inl ⟨word.imp_right ?_, added⟩
    rintro ⟨w, is, overflow⟩
    exact ⟨w, is, (ctl_eq_iff w 0xF#4).mp overflow⟩
  · exact .inr ⟨other, o, is, absorbed, rfl⟩
  · exact absurd rfl changed

end Sys2Proof.Machine
end

section
/-! SUPPORT. The decoder on the words the encoder builds (R71): each class keeps its control value and its fields in its
word. -/

namespace Sys2Proof.Machine

theorem decode_tpWord (ts : BitVec 24) : decode (tpWord ts) = .tp ts := by
  rw [decode_of_tp (ctl_tpWord ts), tpTs_tpWord]

theorem decode_cwWord (m : BitVec 48) (x : U8) : decode (cwWord m x) = .cw m x := by
  rw [decode_of_cw (ctl_cwWord m x), cwMessage_cwWord, cwPayload_cwWord]

theorem decode_chipWord {k : BitVec 4} (hk : k ∉ markedControls) (f : ChipFields) :
    decode (chipWord k f) = chipInstr k f := by
  rw [decode_of_chip (by rwa [ctl_chipWord]), ctl_chipWord, chipFields_chipWord]

/-- Settles O3, class by class: a command has no word, and a ChipData row is the one of its control value. -/
theorem decodeInvertsEncode : Obligations.DecodeInvertsEncode := by
  intro i w hw
  cases i <;> cases hw
  case ovf => exact decode_of_ovf ctl_ovfWord
  case tp ts => exact decode_tpWord ts
  case cw m x => exact decode_cwWord m x
  all_goals exact decode_chipWord (by decide) _

/-- Settles O1: the six words, run through the decoder. -/
theorem wordsOfEachClassDecode : Obligations.WordsOfEachClassDecode := by
  refine ⟨?_, ?_, ?_, ?_, ?_, ?_⟩
  all_goals decide

end Sys2Proof.Machine
end

section
/-! SUPPORT. `EXTEND` of a Sequence with itself (log 10). -/

namespace Sys2Proof.Machine

/-- Settles O33: on a live Sequence the command completes, and of its two writes to that Sequence the later counts. -/
theorem extendBySelf : Obligations.ExtendBySelf := by
  intro s h q live
  obtain ⟨t, hx⟩ := extend_live live live
  obtain ⟨q', o, live', named, -, rfl⟩ := extend_next hx
  obtain rfl : q' = q := Option.some.inj (live'.named.symm.trans live.named)
  obtain rfl : o = q' := Option.some.inj (named.symm.trans live.named)
  rw [hx]
  simp [State.putSeq, extendSequence]

end Sys2Proof.Machine
end

section
/-! SUPPORT. What one turn does to the phase of a reader (R171): a turn of its own agent takes it one step on, no other
turn moves it. -/

namespace Sys2Proof.Machine

variable {s t : State} {h k : Nat} {q q' : Sequence} {answer : Readout} {expire : Bool}

/-- A caller's turn checks its pending command, does nothing, or runs an instruction on the Sequences as they are. -/
theorem callerTurn_cases (hx : takeTurn (.caller k expire) s = .next t) :
    (∃ p, (s.caller k).pending = some p ∧ (s.underTurn k expire).recheck p = .next t)
      ∨ t = s.underTurn k expire
      ∨ ∃ i s', exec i s' = .next t ∧ s'.seqs = s.seqs := by
  cases hp : (s.caller k).pending with
  | some p => exact .inl ⟨p, rfl, by simpa only [takeTurn, State.fetch, State.callerTurn, hp] using hx⟩
  | none =>
    match hi : (s.caller k).program with
    | [] =>
      rw [takeTurn_caller_nothing expire hp hi] at hx
      exact .inr (.inl (Host.Outcome.next.inj hx).symm)
    | .word _ _ :: _ => exact .inr (.inr ⟨_, _, (takeTurn_caller_word expire hp hi).symm.trans hx, rfl⟩)
    | .command _ :: _ => exact .inr (.inr ⟨_, _, (takeTurn_caller_command expire hp hi).symm.trans hx, rfl⟩)

theorem resolve_reader (expire : Bool) (p : Pending) (q : Sequence) : (resolve expire p q).1.reader = q.reader := by
  rcases resolve_cases expire p q with ⟨sub, -, -, hr⟩ | ⟨-, ⟨-, hr⟩ | ⟨-, -, hr⟩ | ⟨-, -, hr⟩⟩
  · rw [hr]
    cases p.kind <;> rfl
  all_goals rw [hr]

/-- A lock body that leaves the reader of its Sequence leaves every reader. -/
theorem locked_reader {j : Nat} {who : Agent} {body : Sequence → Sequence × Ending}
    (keeps : ∀ q, (body q).1.reader = q.reader) (hx : s.locked j who body = .next t) (hq : s.seqs[h]? = some q)
    (hq' : t.seqs[h]? = some q') : q'.reader = q.reader := by
  obtain ⟨q₀, named, -, rfl⟩ := locked_next hx
  rw [conclude_seqs, putSeq_seqs] at hq'
  by_cases same : j = h
  · subst same
    obtain rfl : q₀ = q := Option.some.inj (named.symm.trans hq)
    rw [List.getElem?_set_self (List.getElem?_eq_some_iff.mp hq).1] at hq'
    obtain rfl := Option.some.inj hq'
    exact keeps _
  · rw [List.getElem?_set_ne same, hq] at hq'
    rw [Option.some.inj hq']

theorem callerTurn_phase (hx : takeTurn (.caller k expire) s = .next t) (hq : s.seqs[h]? = some q)
    (hq' : t.seqs[h]? = some q') : q'.reader.phase = q.reader.phase := by
  rcases callerTurn_cases hx with ⟨p, -, checked⟩ | rfl | ⟨i, s', ran, seqs⟩
  · rw [locked_reader (resolve_reader expire p) checked hq hq']
  · rw [underTurn_seqs, hq] at hq'
    rw [Option.some.inj hq']
  · obtain ⟨-, phase, -⟩ := commandsKeepReader i s' t h q q' ran (seqs ▸ hq) hq'
    exact phase

/-- The agent's turn on the Sequence it serves: no step, or the step of its phase. -/
theorem readerTurn_cases (named : s.seqs[h]? = some q) (hx : s.readerTurn h answer = .next t) :
    (q.reader.phase = .idle ∧ q.reader.enabled = false ∧ t = s)
      ∨ (q.reader.phase = .idle ∧ q.reader.enabled = true ∧ t = s.putSeq h (issueReadout q))
      ∨ (q.reader.phase = .reading ∧ t = s.putSeq h (returnReadout answer q))
      ∨ (q.reader.phase = .folding ∧ t = s.putSeq h (foldBatch q)) := by
  have unlocked {body : Sequence → Sequence × Ending} (runs : s.locked h (.reader h) body = .next t) :
      q.lock = none := by
    obtain ⟨q', named', free, -⟩ := locked_next runs
    rwa [Option.some.inj (named'.symm.trans named)] at free
  cases phase : q.reader.phase with
  | idle =>
    cases flag : q.reader.enabled with
    | false =>
      rw [readerTurn_stopped answer named phase flag] at hx
      exact .inl ⟨rfl, rfl, (Host.Outcome.next.inj hx).symm⟩
    | true =>
      have free := unlocked (by simpa only [State.readerTurn, named, phase, flag, if_true] using hx)
      rw [readerTurn_issue answer named phase flag free] at hx
      exact .inr (.inl ⟨rfl, rfl, (Host.Outcome.next.inj hx).symm⟩)
  | reading =>
    rw [readerTurn_return answer named phase] at hx
    exact .inr (.inr (.inl ⟨rfl, (Host.Outcome.next.inj hx).symm⟩))
  | folding =>
    have free := unlocked (by simpa only [State.readerTurn, named, phase] using hx)
    rw [readerTurn_fold answer named phase free] at hx
    exact .inr (.inr (.inr ⟨rfl, (Host.Outcome.next.inj hx).symm⟩))

/-- A reader's turn leaves the Sequences it does not serve. -/
theorem readerTurn_seqs_other {j : Nat} (other : j ≠ h) (hx : s.readerTurn j answer = .next t) :
    t.seqs[h]? = s.seqs[h]? := by
  cases named : s.seqs[j]? with
  | none =>
    have unmoved : (.next s : Result) = .next t := by simpa only [State.readerTurn, named] using hx
    rw [Host.Outcome.next.inj unmoved]
  | some q =>
    rcases readerTurn_cases named hx with ⟨-, -, rfl⟩ | ⟨-, -, rfl⟩ | ⟨-, rfl⟩ | ⟨-, rfl⟩
    · rfl
    all_goals rw [putSeq_seqs, List.getElem?_set_ne other]

/-- The turns its agent still takes before it is idle, its flag being false (R171). -/
def Phase.turnsToIdle : Phase → Nat
  | .idle => 0
  | .folding => 1
  | .reading => 2

theorem Phase.turnsToIdle_eq_zero_iff (p : Phase) : p.turnsToIdle = 0 ↔ p = .idle := by
  cases p <;> simp [turnsToIdle]

/-- The turns to Idle of the reader of `h`; none where `h` names nothing. -/
def State.turnsToIdle (s : State) (h : Nat) : Nat := (s.seqs[h]?).elim 0 fun q => q.reader.phase.turnsToIdle

theorem State.turnsToIdle_of_named (named : s.seqs[h]? = some q) :
    s.turnsToIdle h = q.reader.phase.turnsToIdle := by
  rw [turnsToIdle, named, Option.elim_some]

theorem takeTurn_turnsToIdle_self (hx : takeTurn (.reader h answer) s = .next t) (named : s.seqs[h]? = some q)
    (disabled : q.reader.enabled = false) : t.turnsToIdle h = s.turnsToIdle h - 1 := by
  have written (q' : Sequence) : (s.putSeq h q').turnsToIdle h = q'.reader.phase.turnsToIdle :=
    State.turnsToIdle_of_named (List.getElem?_set_self (List.getElem?_eq_some_iff.mp named).1)
  rw [State.turnsToIdle_of_named named]
  rcases readerTurn_cases named hx with ⟨phase, -, rfl⟩ | ⟨-, enabled, -⟩ | ⟨phase, rfl⟩ | ⟨phase, rfl⟩
  · rw [State.turnsToIdle_of_named named, phase]
    rfl
  · rw [disabled] at enabled
    cases enabled
  all_goals
    rw [written, phase]
    rfl

theorem takeTurn_turnsToIdle_other {turn : Turn} (hx : takeTurn turn s = .next t)
    (other : ∀ answer, turn ≠ .reader h answer) (named : s.seqs[h]? = some q) (named' : t.seqs[h]? = some q') :
    t.turnsToIdle h = s.turnsToIdle h := by
  cases turn with
  | caller k expire =>
    rw [State.turnsToIdle_of_named named, State.turnsToIdle_of_named named', callerTurn_phase hx named named']
  | reader j answer =>
    have ne : j ≠ h := fun same => other answer (same ▸ rfl)
    rw [State.turnsToIdle, readerTurn_seqs_other ne hx, State.turnsToIdle]

end Sys2Proof.Machine
end

section
/-! SUPPORT. A stopped reader along a fair execution (R174, R275): the turns it has left to Idle never grow, and while
there are some, a turn of its agent comes. -/

namespace Sys2Proof.Machine

section Stopped

variable {e : Execution} {n h : Nat}
  (stopped : ∀ m, n ≤ m → ∃ q, (e.state m).seqs[h]? = some q ∧ q.reader.enabled = false)

include stopped

theorem turnsToIdle_own_turn {m : Nat} (hm : n ≤ m) {answer : Readout} (own : e.turn m = .reader h answer) :
    (e.state (m + 1)).turnsToIdle h = (e.state m).turnsToIdle h - 1 := by
  obtain ⟨q, named, disabled⟩ := stopped m hm
  exact takeTurn_turnsToIdle_self (own ▸ e.steps m) named disabled

theorem turnsToIdle_succ_le {m : Nat} (hm : n ≤ m) :
    (e.state (m + 1)).turnsToIdle h ≤ (e.state m).turnsToIdle h := by
  by_cases own : ∃ answer, e.turn m = .reader h answer
  · obtain ⟨answer, own⟩ := own
    rw [turnsToIdle_own_turn stopped hm own]
    exact Nat.sub_le _ 1
  · obtain ⟨q, named, -⟩ := stopped m hm
    obtain ⟨q', named', -⟩ := stopped (m + 1) (Nat.le_succ_of_le hm)
    exact (takeTurn_turnsToIdle_other (e.steps m) (not_exists.mp own) named named').le

theorem turnsToIdle_le {m l : Nat} (hm : n ≤ m) (hl : m ≤ l) :
    (e.state l).turnsToIdle h ≤ (e.state m).turnsToIdle h := by
  induction l, hl using Nat.le_induction with
  | base => exact le_rfl
  | succ l hl ih => exact (turnsToIdle_succ_le stopped (hm.trans hl)).trans ih

theorem idle_of_turnsToIdle_eq_zero {m : Nat} (hm : n ≤ m) (done : (e.state m).turnsToIdle h = 0) :
    ∃ q, (e.state m).seqs[h]? = some q ∧ q.reader.phase = .idle := by
  obtain ⟨q, named, -⟩ := stopped m hm
  rw [State.turnsToIdle_of_named named, Phase.turnsToIdle_eq_zero_iff] at done
  exact ⟨q, named, done⟩

/-- R174 (c): a reader not yet idle keeps having a step until its agent takes a turn. -/
theorem exists_turnsToIdle_lt (fair : e.Fair) {m : Nat} (hm : n ≤ m) (left : (e.state m).turnsToIdle h ≠ 0) :
    ∃ l, m ≤ l ∧ (e.state l).turnsToIdle h < (e.state m).turnsToIdle h := by
  by_contra! stuck
  have busy (l : Nat) (hl : m ≤ l) : (e.state l).turnsToIdle h ≠ 0 := by
    have no_fewer := stuck l hl
    omega
  have hasStep (l : Nat) (hl : m ≤ l) : (e.state l).readerHasStep h := by
    obtain ⟨q, named, -⟩ := stopped l (hm.trans hl)
    have phase := busy l hl
    rw [State.turnsToIdle_of_named named, ne_eq, Phase.turnsToIdle_eq_zero_iff] at phase
    exact ⟨q, named, .inl phase⟩
  obtain ⟨l, answer, hl, own⟩ := fair.readersMove m h hasStep
  have next := turnsToIdle_own_turn stopped (hm.trans hl) own
  have before := turnsToIdle_le stopped hm hl
  have after := stuck (l + 1) (Nat.le_succ_of_le hl)
  omega

theorem exists_turnsToIdle_eq_zero (fair : e.Fair) {m : Nat} (hm : n ≤ m) :
    ∃ l, m ≤ l ∧ (e.state l).turnsToIdle h = 0 := by
  induction hk : (e.state m).turnsToIdle h using Nat.strong_induction_on generalizing m with
  | _ k ih =>
    by_cases done : k = 0
    · exact ⟨m, le_rfl, hk.trans done⟩
    · obtain ⟨l, hl, fewer⟩ := exists_turnsToIdle_lt stopped fair hm (hk ▸ done)
      obtain ⟨l', hl', idle⟩ := ih _ (hk ▸ fewer) (hm.trans hl) rfl
      exact ⟨l', hl.trans hl', idle⟩

end Stopped

/-- Settles O52: the turns to Idle come down to none, and stay there. -/
theorem stoppedReaderReachesIdle : Obligations.StoppedReaderReachesIdle := by
  intro e n h fair stopped
  obtain ⟨m, hm, done⟩ := exists_turnsToIdle_eq_zero stopped fair le_rfl
  refine ⟨m, hm, fun l hl => idle_of_turnsToIdle_eq_zero stopped (hm.trans hl) ?_⟩
  exact Nat.le_zero.mp (done ▸ turnsToIdle_le stopped hm hl)

end Sys2Proof.Machine
end
